-- ==== Sys2Proof/Word.lean ====
section
/-! DEFINITION. The word types of the codec: bus words, register-window offsets, frame bytes, durations, emitter-symbol
words and host-operation words, with the widths the spec gives them. -/

namespace Sys2Proof

/-- A bus word: every register is read and written as one 32-bit word (20 R52; BUS_W = 32). -/
abbrev Word := BitVec 32

/-- One byte of a frame (10 R31). -/
abbrev Byte := BitVec 8

/-- A duration in µs (DUR_W = 16, decision D10), and the ARG field of an emitter symbol (30 R74). -/
abbrev Dur := BitVec 16

/-- A byte offset into the 2 KiB register window (20 R51). -/
abbrev Off := BitVec 11

/-- An emitter symbol as it stands on `sym_data[17:0]` (30 R74, R75). -/
abbrev SymWord := BitVec 18

/-- A host-operation word (30 R79). -/
abbrev HowWord := BitVec 64

end Sys2Proof
end

