-- ==== Sys2Proof/Config.lean ====
section
/-! DEFINITION. What an implementation fixes and the free values. A free value is an opaque constant with no body: nothing
can evaluate it, so a theorem about the model holds whatever it is. Those that are drawn more than once take the number of
the draw, which State counts (`State.draws`, log 12). The turns of the agents stand here because one free value is a turn. -/

namespace Sys2Proof

/-- Who moves in a step (20 R60; log 1). -/
inductive Turn where
  /-- The host runs the next line of its program. -/
  | host
  /-- The encoder hands a symbol over, if the hand-over is enabled (40 R94). -/
  | encoder
  /-- `us` µs of the emitter's time pass (30 R76). -/
  | elapse (us : Nat)
  /-- The platform asserts reset (70 R170). -/
  | reset
  deriving DecidableEq, Repr

/-- The default of the build-time parameter TOL_PCT (00 R5). -/
def Config.tolPctDefault : Nat := 25

/-- The largest legal TOL_PCT (00 R5: "legal range 0 to 48"). -/
def Config.tolPctMax : Nat := 48

/-- FREE VALUE (log 4): what CAPi holds after the reset that makes draw `d` (10 R42: "UNSPECIFIED, each entry
independently"; 93 I6). -/
opaque Config.freeCap (d i : Nat) : Dur

/-- FREE VALUE (log 5): RES_BITS after a failed DECODE (41 R117: "7-bit draw"; 93 I3). -/
opaque Config.freeBits (d : Nat) : BitVec 7

/-- FREE VALUE (log 5): RES_VALUE after a failed DECODE (41 R117: "32-bit draw"; 93 I3). -/
opaque Config.freeValue (d : Nat) : Word

/-- FREE VALUE (log 6): the emitter's carrier frequency after reset (10 R42; 93 I7). -/
opaque Config.freeCarrier (d : Nat) : BitVec 16

/-- FREE VALUE (log 7): whether the line is carrier-modulated once a timed symbol's duration has passed and no further
symbol has been accepted; 30 R76 states the line only for the duration itself. -/
opaque Config.freeLineOn (d : Nat) : Bool

/-- FREE VALUE (log 31): who moves once the schedule is used up, in the state right after reset. `none` is the order of
`Machine.defaultTurn`, under which a train completes; `some t` is the turn `t` for ever, among them the orders in which the
emitter never becomes ready again and BUSY stays 1 (93 I13, 70 R181). -/
opaque Config.freeThereafter : Option Turn

/-- PARAMETER (log 9): REG_BASE, where the window sits in the platform's address map (20 R51; 93 I14). No rule depends on
it: every rule addresses the block by offset. -/
opaque Config.regBase : Nat

/-- PARAMETER (log 9): CARRIER_DUTY, a property of the emitter (93 I9). No rule reads it. -/
opaque Config.carrierDuty : Nat

end Sys2Proof
end

