-- ==== Sys2Proof/Syntax.lean ====
section
/-! DEFINITION. The instructions: one constructor of `Instr` per row of spec/opcode_table.json. Three formats share the
type: the command word written to CMD (30 R70), the host-operation word (30 R79) and the emitter symbol (30 R74). A
constructor carries every field of its format, the ignored bits of a command word too, so that no bit is dropped. -/

namespace Sys2Proof

/-- One constructor per row of the opcode table. -/
inductive Instr where
  /-- NOP: CMD word with OPCODE 0x00 (42 R142). `ign` is bits 31:8, ignored (30 R70). -/
  | nop (ign : BitVec 24)
  /-- ENCODE: CMD word with OPCODE 0x01 (40 R93). -/
  | encodeCmd (ign : BitVec 24)
  /-- DECODE: CMD word with OPCODE 0x02 (41 R117). -/
  | decodeCmd (ign : BitVec 24)
  /-- RESERVED_CMD: CMD word with OPCODE 0x03 to 0xFF (30 R72, 42 R143). -/
  | reservedCmd (opcode : BitVec 8) (ign : BitVec 24)
  /-- RD: a host bus read of the register at byte offset `off` (42 R140). -/
  | rd (off : Off)
  /-- WR: a host bus write of `data` to the register at byte offset `off` (42 R141). -/
  | wr (off : Off) (data : Word)
  /-- CARRIER: emitter symbol of KIND 0b00, ARG in kHz (30 R74, R76). -/
  | carrier (arg : BitVec 16)
  /-- MARK: emitter symbol of KIND 0b01, ARG the carrier-on duration in µs (30 R74, R76). -/
  | mark (arg : Dur)
  /-- SPACE: emitter symbol of KIND 0b10, ARG the carrier-off duration in µs, 0 the idle sentinel (30 R74, R76). -/
  | space (arg : Dur)
  deriving DecidableEq, Repr

/-- A symbol of a pulse train (30 R74): what the encoder produces, before it is laid out in 18 bits. -/
inductive Symbol where
  /-- `CARRIER(f)`, f in kHz. -/
  | carrier (f : BitVec 16)
  /-- `MARK(d)`, d in µs. -/
  | mark (d : Dur)
  /-- `SPACE(d)`, d in µs; `SPACE(0)` is the idle sentinel. -/
  | space (d : Dur)
  deriving DecidableEq, Repr

/-- An instruction's word where the hardware presents it: a command word on a CMD write, a host-operation word of the
host's program, a symbol on the emitter port. -/
inductive InstrWord where
  | cmd (w : Word)
  | how (w : HowWord)
  | sym (w : SymWord)
  deriving DecidableEq, Repr

end Sys2Proof
end

