-- ==== Sys2Proof/WellFormed.lean ====
section
/-! DEFINITION. Which terms of `Instr` stand for a word the spec admits: a reserved command's OPCODE is none of the three
defined ones (30 R71, R72), and an access's offset is a multiple of 4 (20 R52, 30 R79). The other constructors admit every
value of their fields (30 R70: bits 31:8 are ignored; 30 R74: ARG is any 16-bit number; log 14). -/

namespace Sys2Proof

/-- 30 R79: "bits 33:32 (the low two bits of OFF) must be zero". -/
def offAligned (off : Off) : Bool := off.extractLsb' 0 2 == 0#2

/-- 30 R72: the OPCODEs 0x03 to 0xFF. -/
def reservedOpcode (opcode : BitVec 8) : Bool := 3#8 ≤ opcode

/-- The term stands for a word the spec admits. -/
def WellFormed : Instr → Bool
  | .nop _ => true
  | .encodeCmd _ => true
  | .decodeCmd _ => true
  | .reservedCmd opcode _ => reservedOpcode opcode
  | .rd off => offAligned off
  | .wr off _ => offAligned off
  | .carrier _ => true
  | .mark _ => true
  | .space _ => true

end Sys2Proof
end

