-- ==== Sys2Proof/Decode.lean ====
section
/-! DEFINITION. The decoder, total on every word of each format and rejecting by name, and after it the encoder, written
from the same bit layouts (30 R70, R71, R74, R79), and the opcode table's rows as data. -/

namespace Sys2Proof

/-- Why a word stands for no instruction. -/
inductive Reject where
  /-- 30 R79: OP is 0b10 or 0b11. -/
  | howOp
  /-- 30 R79: bits 61:43 are not zero. -/
  | howZero
  /-- 30 R79: OFF is not a multiple of 4. -/
  | howOff
  /-- 30 R79: the DATA of an RD is not zero. -/
  | howData
  /-- 30 R74: KIND is 0b11. -/
  | symKind
  deriving DecidableEq, Repr

/-- Command words (30 R70, R71): OPCODE alone selects the command, and every word is one. -/
def decodeCmdWord (w : Word) : Instr :=
  let opcode := w.extractLsb' 0 8
  let ign := w.extractLsb' 8 24
  if opcode = 0x00#8 then .nop ign
  else if opcode = 0x01#8 then .encodeCmd ign
  else if opcode = 0x02#8 then .decodeCmd ign
  else .reservedCmd opcode ign

/-- Host-operation words (30 R79). The constraints are checked in the order of the fields, OP first (log 18). -/
def decodeHowWord (w : HowWord) : Except Reject Instr :=
  let op := w.extractLsb' 62 2
  let zero := w.extractLsb' 43 19
  let off := w.extractLsb' 32 11
  let data := w.extractLsb' 0 32
  if op ≠ 0b00#2 ∧ op ≠ 0b01#2 then .error .howOp
  else if zero ≠ 0#19 then .error .howZero
  else if offAligned off = false then .error .howOff
  else if op = 0b01#2 then .ok (.wr off data)
  else if data ≠ 0#32 then .error .howData
  else .ok (.rd off)

/-- Emitter symbols (30 R74). -/
def decodeSymWord (w : SymWord) : Except Reject Instr :=
  let kind := w.extractLsb' 16 2
  let arg := w.extractLsb' 0 16
  if kind = 0b00#2 then .ok (.carrier arg)
  else if kind = 0b01#2 then .ok (.mark arg)
  else if kind = 0b10#2 then .ok (.space arg)
  else .error .symKind

/-- The decoder over the three formats. -/
def decode : InstrWord → Except Reject Instr
  | .cmd w => .ok (decodeCmdWord w)
  | .how w => decodeHowWord w
  | .sym w => decodeSymWord w

/-- The instruction read from a row's word as spec/opcode_table.json numbers its bits. The table gives command words 32
bits, host-operation words 64, symbols 18 (24 in whole bytes); the block stores no instruction in bytes and defines no byte
order (20 section 3, decision D3), so a word is taken whole (log 18). -/
def decodeTableWord (nbits w : Nat) : Option Instr :=
  if nbits ≤ 24 then
    if w < 2 ^ 18 then (decode (.sym (BitVec.ofNat 18 w))).toOption else none
  else if nbits ≤ 32 then
    if w < 2 ^ 32 then (decode (.cmd (BitVec.ofNat 32 w))).toOption else none
  else
    if w < 2 ^ 64 then (decode (.how (BitVec.ofNat 64 w))).toOption else none

/-- A command word: bits 31:8 ignored, bits 7:0 OPCODE (30 R70). -/
def cmdWord (opcode : BitVec 8) (ign : BitVec 24) : Word := ign ++ opcode

/-- A host-operation word: OP 63:62, zero 61:43, OFF 42:32, DATA 31:0 (30 R79). -/
def howWord (op : BitVec 2) (off : Off) (data : Word) : HowWord := op ++ 0#19 ++ off ++ data

/-- An emitter symbol: KIND 17:16, ARG 15:0 (30 R74). -/
def symWord (kind : BitVec 2) (arg : BitVec 16) : SymWord := kind ++ arg

/-- The encoder: the word of an instruction. -/
def encode : Instr → InstrWord
  | .nop ign => .cmd (cmdWord 0x00#8 ign)
  | .encodeCmd ign => .cmd (cmdWord 0x01#8 ign)
  | .decodeCmd ign => .cmd (cmdWord 0x02#8 ign)
  | .reservedCmd opcode ign => .cmd (cmdWord opcode ign)
  | .rd off => .how (howWord 0b00#2 off 0#32)
  | .wr off data => .how (howWord 0b01#2 off data)
  | .carrier arg => .sym (symWord 0b00#2 arg)
  | .mark arg => .sym (symWord 0b01#2 arg)
  | .space arg => .sym (symWord 0b10#2 arg)

/-- The 18 bits a symbol stands as on the emitter port (30 R74). -/
def symbolWord : Symbol → SymWord
  | .carrier f => symWord 0b00#2 f
  | .mark d => symWord 0b01#2 d
  | .space d => symWord 0b10#2 d

/-- The instruction a symbol is on the emitter port. -/
def symbolInstr : Symbol → Instr
  | .carrier f => .carrier f
  | .mark d => .mark d
  | .space d => .space d

/-- A row of spec/opcode_table.json: a word belongs to it when its bits under `mask` are `pattern`. -/
structure Row where
  mnemonic : String
  width : Nat
  pattern : Nat
  mask : Nat
  deriving DecidableEq, Repr

/-- The rows of spec/opcode_table.json, in its order. RESERVED_CMD is matched last among the command words. -/
def opcodeTable : List Row :=
  [⟨"NOP", 32, 0x00000000, 0x000000FF⟩, ⟨"ENCODE", 32, 0x00000001, 0x000000FF⟩, ⟨"DECODE", 32, 0x00000002, 0x000000FF⟩,
    ⟨"RESERVED_CMD", 32, 0x00000000, 0x00000000⟩]
  ++ [⟨"RD", 64, 0x0000000000000000, 0xFFFFF803FFFFFFFF⟩, ⟨"WR", 64, 0x4000000000000000, 0xFFFFF80300000000⟩]
  ++ [⟨"CARRIER", 18, 0x00000, 0x30000⟩, ⟨"MARK", 18, 0x10000, 0x30000⟩, ⟨"SPACE", 18, 0x20000, 0x30000⟩]

/-- The row of the table an instruction is an instruction of. -/
def rowOf : Instr → Row
  | .nop _ => ⟨"NOP", 32, 0x00000000, 0x000000FF⟩
  | .encodeCmd _ => ⟨"ENCODE", 32, 0x00000001, 0x000000FF⟩
  | .decodeCmd _ => ⟨"DECODE", 32, 0x00000002, 0x000000FF⟩
  | .reservedCmd _ _ => ⟨"RESERVED_CMD", 32, 0x00000000, 0x00000000⟩
  | .rd _ => ⟨"RD", 64, 0x0000000000000000, 0xFFFFF803FFFFFFFF⟩
  | .wr _ _ => ⟨"WR", 64, 0x4000000000000000, 0xFFFFF80300000000⟩
  | .carrier _ => ⟨"CARRIER", 18, 0x00000, 0x30000⟩
  | .mark _ => ⟨"MARK", 18, 0x10000, 0x30000⟩
  | .space _ => ⟨"SPACE", 18, 0x20000, 0x30000⟩

/-- The bits of a word, as a number. -/
def wordBits : InstrWord → Nat
  | .cmd w => w.toNat
  | .how w => w.toNat
  | .sym w => w.toNat

/-- How many bits a word has. -/
def wordWidth : InstrWord → Nat
  | .cmd _ => 32
  | .how _ => 64
  | .sym _ => 18

/-- A word belongs to a row of the table. -/
def InRow (f : InstrWord) (r : Row) : Prop := wordWidth f = r.width ∧ wordBits f &&& r.mask = r.pattern

end Sys2Proof
end

