-- ==== Sys2Proof/Machine/State.lean ====
section
/-! DEFINITION. The state of the codec and of the agents around it, as plain data; the reasons a step can stop; and the
state right after reset (10 R42). -/

namespace Sys2Proof.Machine

/-- ENC_STATUS.ERR (10 R25). The reserved code 0b11, "never produced", is no value of the type (93 I5; log 16). -/
inductive EncErr where
  | none
  | badLen
  | busy
  deriving DecidableEq, Repr

/-- DEC_STATUS.ERR (10 R28). The reserved codes 0b110 and 0b111, "never produced", are no values of the type (93 I5;
log 16). -/
inductive DecErr where
  | none
  | len
  | hdrMark
  | hdrSpace
  | bitMark
  | bitSpace
  deriving DecidableEq, Repr

/-- The emitter's output line (10 R38): carrier-on or off. -/
inductive Line where
  | off
  | modulated
  deriving DecidableEq, Repr

/-- A register of the window (10 R20). -/
inductive Reg where
  | cmd
  | encStatus
  | decStatus
  | frameLen
  | frame (i : Fin 10)
  | capCount
  | resBits
  | resValue
  | cap (i : Fin 256)
  deriving DecidableEq, Repr

/-- The width of a bus access (20 R52, R53). -/
inductive Width where
  | w8
  | w16
  | w32
  deriving DecidableEq, Repr

/-- A bus access as the host's bus makes it, of any width and at any offset of the window (20 R52, R53). -/
structure Access where
  write : Bool
  width : Width
  off : Off
  data : Word
  deriving DecidableEq, Repr

/-- One line of a host program (42 R145). -/
inductive HostLine where
  /-- A host-operation word (30 R79). -/
  | how (w : HowWord)
  /-- One 32-bit write of a command word to CMD (30 R73). -/
  | cmd (w : Word)
  /-- `POLL off, mask, value` (30 R80). -/
  | poll (off : Off) (mask value : Word)
  /-- A bus access that a host-operation word cannot write down: any width (20 R53). -/
  | access (a : Access)
  deriving DecidableEq, Repr

/-- What a decode answers (41 R116). -/
inductive DecodeResult where
  | ok (bits : BitVec 7) (value : Word)
  | fail (code : DecErr) (pos : BitVec 8)
  deriving DecidableEq, Repr

/-- The state: the block's registers and hidden state (10 R20 to R37), the emitter's (10 R38), the build-time parameter,
and the model's own fields for the host, the order of the agents and the free values. -/
structure State where
  /-- FRAME_LEN.LEN (10 R30). -/
  frameLen : BitVec 4
  /-- FRAME0.BYTE to FRAME9.BYTE (10 R31). -/
  frame : Vector Byte 10
  /-- CAP_COUNT.COUNT (10 R32). -/
  capCount : BitVec 8
  /-- CAP0.DUR to CAP255.DUR (10 R33). -/
  cap : Vector Dur 256
  /-- ENC_STATUS.BUSY (10 R23). -/
  encBusy : Bool
  /-- ENC_STATUS.DONE (10 R24). -/
  encDone : Bool
  /-- ENC_STATUS.ERR (10 R25). -/
  encErr : EncErr
  /-- DEC_STATUS.DONE (10 R26). -/
  decDone : Bool
  /-- DEC_STATUS.OK (10 R27). -/
  decOk : Bool
  /-- DEC_STATUS.ERR (10 R28). -/
  decErr : DecErr
  /-- DEC_STATUS.FAIL_POS (10 R29). -/
  failPos : BitVec 8
  /-- RES_BITS.BITS (10 R34). -/
  resBits : BitVec 7
  /-- RES_VALUE.VALUE (10 R35). -/
  resValue : Word
  /-- `enc_seq`: the words of the train being sent (10 R36, R37). -/
  encSeq : List SymWord
  /-- `enc_idx`: the index of the next symbol to hand over (10 R36). -/
  encIdx : Nat
  /-- The emitter's output line (10 R38). -/
  emLine : Line
  /-- The emitter's carrier frequency in kHz (10 R38). -/
  emCarrier : BitVec 16
  /-- How much of the current symbol's duration is left, in µs (10 R38). -/
  emLeft : Nat
  /-- TOL_PCT (00 R5), fixed for the machine: no step writes it (log 8). -/
  tolPct : Fin 49
  /-- The model's own: what the last RD returned to the host (42 R140; log 10). -/
  busData : Word
  /-- The model's own: the symbols the emitter has accepted, oldest first (20 R65; log 11). -/
  sent : List SymWord
  /-- The model's own: the host program's remaining lines (42 R145; log 3). -/
  program : List HostLine
  /-- The model's own: who moves next (20 R60; log 1). -/
  schedule : List Turn
  /-- The model's own: who moves in every step once the schedule is used up (70 R181; log 31). No step writes it. -/
  thereafter : Option Turn
  /-- The model's own: how many free values have been drawn (log 12). -/
  draws : Nat
  deriving DecidableEq, Repr

/-- The reasons a step faults. No state that a run reaches has either (`State.Inv`, Safety.lean). -/
inductive Fault where
  /-- The encoder's turn offers a word whose KIND is the reserved 0b11 (93 I5: "reaching one is a `fault` of the model").
  Raised by the encoder's turn. Safe: the block never produces one (log 27). -/
  | reservedSymbol
  /-- BUSY = 1 with `enc_idx` past the train, outside the bound of 10 R36. Raised by the encoder's turn. Safe: the block
  completes with the last symbol (log 15). -/
  | noSymbolOffered
  deriving DecidableEq, Repr

/-- The reasons a step refuses. -/
inductive Refusal where
  /-- The instruction has no meaning in the model yet. Raised by `exec`'s arms only. Safe. -/
  | notModelled (mnemonic : String)
  /-- The host's program holds a word that is no host-operation word (30 R79: "not admitted, and a model refuses it").
  Raised by the host's turn. Safe. -/
  | inadmissible (r : Reject)
  /-- An access that is not 32 bits wide (20 R53: "A model refuses it"). Raised by the host's turn. Safe. -/
  | narrowAccess
  /-- An access at an offset that is not a multiple of 4 (20 R53). Raised by RD and WR. Safe. -/
  | misalignedAccess
  deriving DecidableEq, Repr

/-- What CAP0 to CAP255 hold after the reset that makes draw `d` (10 R42, 70 R170; log 4). -/
def capDraws (d : Nat) : Vector Dur 256 := Vector.ofFn fun i => Config.freeCap d i

/-- The machine right after reset (10 R42), with no host program and nothing scheduled. -/
def State.reset : State where
  frameLen := 0#4
  frame := Vector.replicate 10 0#8
  capCount := 0#8
  cap := capDraws 0
  encBusy := false
  encDone := false
  encErr := .none
  decDone := false
  decOk := false
  decErr := .none
  failPos := 0#8
  resBits := 0#7
  resValue := 0#32
  encSeq := []
  encIdx := 0
  emLine := .off
  emCarrier := Config.freeCarrier 0
  emLeft := 0
  tolPct := 25
  busData := 0#32
  sent := []
  program := []
  schedule := []
  thereafter := Config.freeThereafter
  draws := 1

end Sys2Proof.Machine
end

