-- ==== Sys2Proof/Machine/Flags.lean ====
section
/-! DEFINITION. The status registers: the codes of their ERR fields, their layout as bus words, and the only operations that
write them besides reset (10 R39): the acceptance, refusal and completion of an encode, and the two outcomes of a decode. -/

namespace Sys2Proof.Machine

/-- The code of ENC_STATUS.ERR (10 R25). -/
def encErrCode : EncErr → BitVec 2
  | .none => 0b00#2
  | .badLen => 0b01#2
  | .busy => 0b10#2

/-- The code of DEC_STATUS.ERR (10 R28, 60 R151). -/
def decErrCode : DecErr → BitVec 3
  | .none => 0b000#3
  | .len => 0b001#3
  | .hdrMark => 0b010#3
  | .hdrSpace => 0b011#3
  | .bitMark => 0b100#3
  | .bitSpace => 0b101#3

/-- ENC_STATUS as a bus word: ERR 3:2, DONE 1, BUSY 0, bits 31:4 zero (10 R23, R24, R25). -/
def encStatusWord (s : State) : Word :=
  0#28 ++ encErrCode s.encErr ++ BitVec.ofBool s.encDone ++ BitVec.ofBool s.encBusy

/-- DEC_STATUS as a bus word: FAIL_POS 15:8, ERR 4:2, OK 1, DONE 0, the other bits zero (10 R26 to R29). -/
def decStatusWord (s : State) : Word :=
  0#16 ++ s.failPos ++ 0#3 ++ decErrCode s.decErr ++ BitVec.ofBool s.decOk ++ BitVec.ofBool s.decDone

/-- A refused ENCODE writes ERR and nothing else (40 R93, 60 R152). -/
def refuseEncode (e : EncErr) (s : State) : State := { s with encErr := e }

/-- An accepted ENCODE: the train is held from its first symbol, BUSY set, DONE and ERR cleared (40 R93). -/
def acceptEncode (train : List SymWord) (s : State) : State :=
  { s with encSeq := train, encIdx := 0, encBusy := true, encDone := false, encErr := .none }

/-- The encoder's half of a hand-over: `enc_idx` rises by 1, and with the last symbol BUSY falls and DONE rises; ERR is
left as it is (40 R94, R95). -/
def advanceEncoder (s : State) : State :=
  if s.encIdx + 1 = s.encSeq.length then { s with encIdx := s.encIdx + 1, encBusy := false, encDone := true }
  else { s with encIdx := s.encIdx + 1 }

/-- A successful DECODE (41 R117). -/
def recordDecoded (bits : BitVec 7) (value : Word) (s : State) : State :=
  { s with
    decDone := true, decOk := true, decErr := .none, failPos := 0#8, resBits := bits, resValue := value }

/-- A failed DECODE (41 R117, 60 R151): the code and the position are recorded, and RES_BITS and RES_VALUE are fresh draws
of free values (log 5). This is all an error does: no trap is taken (60 R153). -/
def recordMismatch (code : DecErr) (pos : BitVec 8) (s : State) : State :=
  { s with
    decDone := true, decOk := false, decErr := code, failPos := pos
    resBits := Config.freeBits s.draws, resValue := Config.freeValue s.draws, draws := s.draws + 1 }

/-- The outcome of a decode written into DEC_STATUS, RES_BITS and RES_VALUE (41 R117). -/
def recordDecode (r : DecodeResult) (s : State) : State :=
  match r with
  | .ok bits value => recordDecoded bits value s
  | .fail code pos => recordMismatch code pos s

end Sys2Proof.Machine
end

