-- ==== Sys2Proof/Machine/Operands.lean ====
section
/-! DEFINITION. The register map (10 R20), how a register is read and stored (10 R22 to R35, R40), and the operands the
commands take from the registers (30 R78). -/

namespace Sys2Proof.Machine

/-- The byte offset of a register (10 R20). -/
def regOffset : Reg → Off
  | .cmd => 0x000#11
  | .encStatus => 0x004#11
  | .decStatus => 0x008#11
  | .frameLen => 0x00C#11
  | .frame i => BitVec.ofNat 11 (0x010 + 4 * i.val)
  | .capCount => 0x040#11
  | .resBits => 0x044#11
  | .resValue => 0x048#11
  | .cap i => BitVec.ofNat 11 (0x400 + 4 * i.val)

/-- The register at a byte offset, if there is one (10 R20): an offset that is not a multiple of 4 or not in the map has
none (20 R52, R54). -/
def regAt (off : Off) : Option Reg :=
  let n := off.toNat
  if n % 4 ≠ 0 then none
  else if n = 0x000 then some .cmd
  else if n = 0x004 then some .encStatus
  else if n = 0x008 then some .decStatus
  else if n = 0x00C then some .frameLen
  else if h : 0x010 ≤ n ∧ n ≤ 0x037 then some (.frame ⟨(n - 0x010) / 4, by omega⟩)
  else if n = 0x040 then some .capCount
  else if n = 0x044 then some .resBits
  else if n = 0x048 then some .resValue
  else if h : 0x400 ≤ n ∧ n ≤ 0x7FF then some (.cap ⟨(n - 0x400) / 4, by omega⟩)
  else none

/-- A register as a bus word: its fields in place, every other bit 0 (10 R40); CMD reads 0 (10 R22). -/
def readReg (r : Reg) (s : State) : Word :=
  match r with
  | .cmd => 0#32
  | .encStatus => encStatusWord s
  | .decStatus => decStatusWord s
  | .frameLen => s.frameLen.setWidth 32
  | .frame i => s.frame[i].setWidth 32
  | .capCount => s.capCount.setWidth 32
  | .resBits => s.resBits.setWidth 32
  | .resValue => s.resValue
  | .cap i => s.cap[i].setWidth 32

/-- A bus write to a register other than CMD: a read-write field keeps the low bits of the data (10 R30 to R33); a
read-only register ignores it (10 R40). CMD holds no state (10 R22): its command is run by `busWrite`. -/
def storeReg (r : Reg) (v : Word) (s : State) : State :=
  match r with
  | .cmd => s
  | .encStatus => s
  | .decStatus => s
  | .frameLen => { s with frameLen := v.extractLsb' 0 4 }
  | .frame i => { s with frame := s.frame.set i (v.extractLsb' 0 8) }
  | .capCount => { s with capCount := v.extractLsb' 0 8 }
  | .resBits => s
  | .resValue => s
  | .cap i => { s with cap := s.cap.set i (v.extractLsb' 0 16) }

/-- The OPCODE of a command word (30 R70). -/
def opcodeOf (v : Word) : BitVec 8 := v.extractLsb' 0 8

/-- The frame an ENCODE reads: FRAME0 to FRAME(LEN−1) (10 R31, 40 R93). -/
def frameBytes (s : State) : List Byte := s.frame.toList.take s.frameLen.toNat

/-- The capture a DECODE reads: CAP0 to CAP(COUNT−1) (30 R77, 41 R117). -/
def captureOf (s : State) : List Dur := s.cap.toList.take s.capCount.toNat

/-- The decoder's tolerance TOL_PCT (00 R5). -/
def tolerance (s : State) : Nat := s.tolPct.val

/-- `sym_valid` (30 R75): a symbol is offered exactly while BUSY = 1. -/
def symValid (s : State) : Bool := s.encBusy

/-- `sym_data` (10 R38, 30 R75): the symbol at `enc_seq[enc_idx]`. -/
def symData (s : State) : Option SymWord := s.encSeq[s.encIdx]?

/-- `sym_ready` (30 R76): the emitter is ready when no duration is left. -/
def symReady (s : State) : Bool := s.emLeft == 0

end Sys2Proof.Machine
end

