-- ==== Sys2Proof/Machine/Timing.lean ====
section
/-! DEFINITION. The protocol's timing constants (00 R3, R4), "the bit-exact contract" (00 R2; log 20). The block holds them
as constants: no register reads or writes them. -/

namespace Sys2Proof.Machine

/-- HDR_MARK_US (00 R3). -/
def hdrMarkUs : Dur := 4400#16

/-- HDR_SPACE_US (00 R3). -/
def hdrSpaceUs : Dur := 4400#16

/-- BIT_MARK_US (00 R3). -/
def bitMarkUs : Dur := 550#16

/-- ONE_SPACE_US (00 R3). -/
def oneSpaceUs : Dur := 1600#16

/-- ZERO_SPACE_US (00 R3). -/
def zeroSpaceUs : Dur := 550#16

/-- TRAILER_MARK_US (00 R3). -/
def trailerMarkUs : Dur := 550#16

/-- CARRIER_KHZ (00 R4). -/
def carrierKhz : BitVec 16 := 38#16

/-- DEC_BITS (00 R6): how many payload bits the decoder keeps. -/
def decBits : Nat := 32

/-- LEGAL_BITS (00 R6). -/
def legalBits : List Nat := [56, 72, 80]

/-- LEGAL_LEN (00 R7), in bytes. -/
def legalLen : List Nat := [7, 9, 10]

end Sys2Proof.Machine
end

