-- ==== Sys2Proof/Machine/Ops.lean ====
section
/-! DEFINITION. The shared operations: the pulse train (40 R90, R91), the pulse decoder (41 R110 to R116), the two commands
over them (40 R93, 41 R117), command dispatch and the bus (42 R140, R141, R144), the emitter (30 R76), and reset (70 R170).
The block takes no trap (60 R153), so there is no operation that enters or leaves one: an error is what `refuseEncode` and
`recordMismatch` write. -/

namespace Sys2Proof.Machine

/-! ### The pulse train -/

/-- The bits of a byte, most significant first (20 R57). -/
def byteBits (b : Byte) : List Bool :=
  [b.getLsbD 7, b.getLsbD 6, b.getLsbD 5, b.getLsbD 4, b.getLsbD 3, b.getLsbD 2, b.getLsbD 1, b.getLsbD 0]

/-- A bit's mark and space (40 R90). -/
def bitPulses (b : Bool) : List Symbol := [.mark bitMarkUs, .space (if b then oneSpaceUs else zeroSpaceUs)]

/-- A byte's pulses (40 R90). -/
def bytePulses (b : Byte) : List Symbol := (byteBits b).flatMap bitPulses

/-- `train(b)` (40 R90): the header, the bytes in frame order, the trailer mark and the idle sentinel. -/
def train (f : List Byte) : List Symbol :=
  [.mark hdrMarkUs, .space hdrSpaceUs] ++ f.flatMap bytePulses ++ [.mark trailerMarkUs, .space 0#16]

/-- `symbols(b)` (40 R91): the carrier is set once, before the header mark. -/
def symbols (f : List Byte) : List Symbol := .carrier carrierKhz :: train f

/-- The duration of a pulse in µs; a CARRIER takes no time (30 R76). -/
def symbolUs : Symbol → Nat
  | .carrier _ => 0
  | .mark d => d.toNat
  | .space d => d.toNat

/-- The line time of a train: the sum of its durations (40 R100). -/
def lineTime (p : List Symbol) : Nat := (p.map symbolUs).sum

/-- The duration field of a pulse (41 R120). -/
def pulseDur : Symbol → Option Dur
  | .carrier _ => none
  | .mark d => if d = 0#16 then none else some d
  | .space d => if d = 0#16 then none else some d

/-- `capture(p, g)` (41 R120): the leading gap, then every timed pulse in order; the sentinel is not captured. -/
def capture (p : List Symbol) (g : Dur) : List Dur := g :: p.filterMap pulseDur

/-! ### The pulse decoder -/

/-- `match(d, ref)` at tolerance T, in exact arithmetic, both ends included (41 R110). -/
def inBand (T d ref : Nat) : Bool := decide (ref * (100 - T) ≤ 100 * d) && decide (100 * d ≤ ref * (100 + T))

/-- `classify(d)` (41 R111): `some true` is ONE, `some false` ZERO, `none` unclassifiable. -/
def classify (T d : Nat) : Option Bool :=
  if inBand T d oneSpaceUs.toNat then some true
  else if inBand T d zeroSpaceUs.toNat then some false
  else none

/-- The length gate (41 R112): the bit count of a capture of `n` elements, if it is legal. -/
def gate (n : Nat) : Option Nat :=
  if n < 3 then none
  else if (n - 3) / 2 ∈ legalBits then some ((n - 3) / 2)
  else none

/-- Element `i` of a capture. The decoder asks for no element past the capture's end (41 R116; log 19). -/
def durAt (c : List Dur) (i : Nat) : Nat := (c.getD i 0#16).toNat

/-- Step 4 of a decode (41 R115): `k` bits from bit `i` on, shifted into `acc` most significant first. -/
def scanBits (T : Nat) (c : List Dur) (bits : BitVec 7) : (i k : Nat) → (acc : Word) → DecodeResult
  | _, 0, acc => .ok bits acc
  | i, k + 1, acc =>
    if inBand T (durAt c (3 + 2 * i)) bitMarkUs.toNat then
      match classify T (durAt c (4 + 2 * i)) with
      | none => .fail .bitSpace (BitVec.ofNat 8 (4 + 2 * i))
      | some b => scanBits T c bits (i + 1) k (acc <<< 1 ||| (BitVec.ofBool b).setWidth 32)
    else .fail .bitMark (BitVec.ofNat 8 (3 + 2 * i))

/-- `decode(c, T)` (41 R112 to R116): the four steps in order, the first failure ending it (60 R157). -/
def decodePulses (T : Nat) (c : List Dur) : DecodeResult :=
  match gate c.length with
  | none => .fail .len 0#8
  | some n =>
    if inBand T (durAt c 1) hdrMarkUs.toNat then
      if inBand T (durAt c 2) hdrSpaceUs.toNat then scanBits T c (BitVec.ofNat 7 n) 0 decBits 0#32
      else .fail .hdrSpace 2#8
    else .fail .hdrMark 1#8

/-! ### The commands -/

/-- ENCODE (40 R93): the busy check first (60 R156), then the length check, then acceptance on a snapshot of the frame
(10 R37). -/
def runEncode (s : State) : State :=
  if s.encBusy then refuseEncode .busy s
  else if s.frameLen.toNat ∈ legalLen then acceptEncode ((symbols (frameBytes s)).map symbolWord) s
  else refuseEncode .badLen s

/-- DECODE (41 R117): the whole scan in one step. -/
def runDecode (s : State) : State := recordDecode (decodePulses (tolerance s) (captureOf s)) s

/-- Command dispatch on a write of `v` to CMD (30 R71, 42 R144); NOP and the reserved OPCODEs change nothing (42 R142,
R143). -/
def runCommand (v : Word) (s : State) : State :=
  if opcodeOf v = 0x01#8 then runEncode s
  else if opcodeOf v = 0x02#8 then runDecode s
  else s

/-! ### The bus -/

/-- `MemRead(off, 4)` (20 R52, 42 R140): a register's word, 0 at an unmapped offset (20 R54). -/
def busRead (off : Off) (s : State) : Word :=
  match regAt off with
  | none => 0#32
  | some r => readReg r s

/-- `MemWrite(off, 4, v)` (20 R52, 42 R141): CMD runs a command, a register keeps its field, an unmapped offset ignores the
write (20 R54). -/
def busWrite (off : Off) (v : Word) (s : State) : State :=
  match regAt off with
  | none => s
  | some .cmd => runCommand v s
  | some r => storeReg r v s

/-! ### The emitter -/

/-- The emitter accepts a symbol (30 R76): CARRIER sets the carrier and leaves the line, MARK drives it modulated, SPACE
holds it off, and the symbol's duration is what is left before the emitter is ready again; `SPACE(0)` leaves none. -/
def emitterAccept (sy : Symbol) (s : State) : State :=
  match sy with
  | .carrier f => { s with emCarrier := f, emLeft := 0, sent := s.sent ++ [symbolWord sy] }
  | .mark d => { s with emLine := .modulated, emLeft := d.toNat, sent := s.sent ++ [symbolWord sy] }
  | .space d => { s with emLine := .off, emLeft := d.toNat, sent := s.sent ++ [symbolWord sy] }

/-- `us` µs pass at the emitter (30 R76; log 29). When a symbol's duration has passed the emitter is ready; what the line
does from then until the next symbol is accepted the spec does not say: a free value (log 7). -/
def emitterElapse (us : Nat) (s : State) : State :=
  if s.emLeft = 0 then s
  else if us < s.emLeft then { s with emLeft := s.emLeft - us }
  else
    { s with
      emLeft := 0, emLine := if Config.freeLineOn s.draws then .modulated else .off, draws := s.draws + 1 }

/-! ### Reset -/

/-- Reset of the block and, together with it, of the emitter (70 R170, R171), whatever either held before. The parameter
TOL_PCT, the host's program, the schedule, the host's last read data and the record of what the emitter has accepted are
not the block's to reset (70 R170; log 21). -/
def resetBlock (s : State) : State :=
  { s with
    frameLen := 0#4, frame := Vector.replicate 10 0#8, capCount := 0#8, cap := capDraws s.draws
    encBusy := false, encDone := false, encErr := .none
    decDone := false, decOk := false, decErr := .none, failPos := 0#8, resBits := 0#7, resValue := 0#32
    encSeq := [], encIdx := 0
    emLine := .off, emCarrier := Config.freeCarrier s.draws, emLeft := 0, draws := s.draws + 1 }

end Sys2Proof.Machine
end

