-- ==== Sys2Proof/Machine/Bus.lean ====
section
/-! DEFINITION. The meanings of the host operations RD and WR (42 R140, R141). -/

namespace Sys2Proof.Machine

/-- RD (42 R140): the register's word goes to the host and nothing else changes (20 R55); an offset that is not a multiple
of 4 is refused (20 R53). -/
def execRd (off : Off) (s : State) : Host.Outcome State Fault Refusal :=
  if offAligned off then .next { s with busData := busRead off s } else .refused .misalignedAccess

/-- WR (42 R141): the write takes effect in the same step, a write to CMD by running its command; an offset that is not a
multiple of 4 is refused (20 R53). -/
def execWr (off : Off) (data : Word) (s : State) : Host.Outcome State Fault Refusal :=
  if offAligned off then .next (busWrite off data s) else .refused .misalignedAccess

end Sys2Proof.Machine
end

