-- ==== Sys2Proof/Machine/Commands.lean ====
section
/-! DEFINITION. The meanings of the CMD words: what a write of the word to CMD does (42 R144). None traps and none stops
(60 R153). -/

namespace Sys2Proof.Machine

/-- NOP (42 R142): no effect. -/
def execNop (_ign : BitVec 24) (s : State) : Host.Outcome State Fault Refusal := .next s

/-- ENCODE (40 R93). -/
def execEncode (_ign : BitVec 24) (s : State) : Host.Outcome State Fault Refusal := .next (runEncode s)

/-- DECODE (41 R117). -/
def execDecode (_ign : BitVec 24) (s : State) : Host.Outcome State Fault Refusal := .next (runDecode s)

/-- A reserved OPCODE (30 R72, 42 R143): run exactly as NOP (93 I4; log 26). -/
def execReservedCmd (_opcode : BitVec 8) (_ign : BitVec 24) (s : State) : Host.Outcome State Fault Refusal := .next s

end Sys2Proof.Machine
end

