-- ==== Sys2Proof/Machine/Emitter.lean ====
section
/-! DEFINITION. The meanings of the emitter symbols (30 R76): what accepting one does to the emitter. The encoder's half of
the hand-over, `enc_idx` and the completion (40 R94, R95), is what the encoder's turn adds around them (Turns.lean). -/

namespace Sys2Proof.Machine

/-- `CARRIER(f)` (30 R76): "sets the carrier to f kHz, leaves the line as it was, and is ready again at once". -/
def execCarrier (arg : BitVec 16) (s : State) : Host.Outcome State Fault Refusal := .next (emitterAccept (.carrier arg) s)

/-- `MARK(d)` (30 R76): the line is carrier-modulated for d µs. -/
def execMark (arg : Dur) (s : State) : Host.Outcome State Fault Refusal := .next (emitterAccept (.mark arg) s)

/-- `SPACE(d)` (30 R76): the line is off for d µs, and with d = 0 indefinitely, the emitter being ready at once. -/
def execSpace (arg : Dur) (s : State) : Host.Outcome State Fault Refusal := .next (emitterAccept (.space arg) s)

end Sys2Proof.Machine
end

