-- ==== Sys2Proof/Machine/Dispatch.lean ====
section
/-! DEFINITION. One arm per instruction. -/

namespace Sys2Proof.Machine

def exec (i : Instr) (s : State) : Host.Outcome State Fault Refusal :=
  match i with
  | .nop ign => Sys2Proof.Machine.execNop ign s
  | .encodeCmd ign => Sys2Proof.Machine.execEncode ign s
  | .decodeCmd ign => Sys2Proof.Machine.execDecode ign s
  | .reservedCmd opcode ign => Sys2Proof.Machine.execReservedCmd opcode ign s
  | .rd off => Sys2Proof.Machine.execRd off s
  | .wr off data => Sys2Proof.Machine.execWr off data s
  | .carrier arg => Sys2Proof.Machine.execCarrier arg s
  | .mark arg => Sys2Proof.Machine.execMark arg s
  | .space arg => Sys2Proof.Machine.execSpace arg s

end Sys2Proof.Machine
end

