-- ==== Sys2Proof/Machine/Turns.lean ====
section
/-! DEFINITION. The agents' turns: what the host, the encoder, the emitter and the platform do when each is the one to move
(20 R60, 60 R158, R160), who moves when the schedule says nothing, and how a single instruction is placed to be the next one
run. -/

namespace Sys2Proof.Machine

/-- A word is decoded and run; a word that stands for no instruction is refused (30 R79). -/
def runWord (f : InstrWord) (s : State) : Host.Outcome State Fault Refusal :=
  match decode f with
  | .ok i => exec i s
  | .error r => .refused (.inadmissible r)

/-- A bus access of any width: an aligned 32-bit one is an RD or a WR, any other is refused (20 R52, R53; log 25). -/
def runAccess (a : Access) (s : State) : Host.Outcome State Fault Refusal :=
  if a.width = .w32 then (if a.write then exec (.wr a.off a.data) s else exec (.rd a.off) s)
  else .refused .narrowAccess

/-- After a repetition of a POLL's RD: the host moves on when the masked result equals the value, and otherwise stays at
the line (30 R80, 42 R145). -/
def pollDone (mask value : Word) (rest : List HostLine) (s : State) : State :=
  if s.busData &&& mask = value then { s with program := rest } else s

/-- The host's turn: the next line of its program (42 R145). With no line left the host makes no access. -/
def hostTurn (s : State) : Host.Outcome State Fault Refusal :=
  match s.program with
  | [] => .next s
  | .how w :: rest => runWord (.how w) { s with program := rest }
  | .cmd w :: rest => runWord (.cmd w) { s with program := rest }
  | .access a :: rest => runAccess a { s with program := rest }
  | .poll off mask value :: rest =>
    match exec (.rd off) s with
    | .next t => .next (pollDone mask value rest t)
    | .fault r => .fault r
    | .refused r => .refused r

/-- The encoder's turn (40 R94): enabled when BUSY = 1 and the emitter is ready, it hands the offered symbol over, which the
emitter accepts (30 R76), and advances. Not enabled, the turn passes with no effect (log 1). The
emitter's half is `exec` of the symbol, the block's half `advanceEncoder` (log 24). -/
def encoderTurn (s : State) : Host.Outcome State Fault Refusal :=
  if symValid s && symReady s then
    match symData s with
    | none => .fault .noSymbolOffered
    | some w =>
      match decode (.sym w) with
      | .ok i => exec i (advanceEncoder s)
      | .error _ => .fault .reservedSymbol
  else .next s

/-- One agent's turn. -/
def takeTurn (t : Turn) (s : State) : Host.Outcome State Fault Refusal :=
  match t with
  | .host => hostTurn s
  | .encoder => encoderTurn s
  | .elapse us => .next (emitterElapse us s)
  | .reset => .next (resetBlock s)

/-- The host has a line to run that is not a POLL which would only repeat itself. -/
def hostWants (s : State) : Bool :=
  match s.program with
  | [] => false
  | .poll off mask value :: _ => busRead off s &&& mask == value
  | _ :: _ => true

/-- Who moves when the schedule is used up and `thereafter` names no turn (DESIGN CHOICE, log 2): the host while it has a
line to run; while it has none or waits in a POLL, the train in flight; otherwise the host's turn. -/
def defaultTurn (s : State) : Turn :=
  if hostWants s then .host
  else if s.encBusy then (if symReady s then .encoder else .elapse s.emLeft)
  else .host

/-- Who moves next: the head of the schedule and, once it is used up, `thereafter`. The turn that `thereafter` names comes in
every later step, so a run in which the emitter is given no more time, a hang with BUSY = 1, is a run (93 I13, 70 R181;
log 31). -/
def nextTurn (s : State) : Turn :=
  match s.schedule, s.thereafter with
  | [], none => defaultTurn s
  | [], some t => t
  | t :: _, _ => t

/-- The schedule's head is used up by the step it decides. -/
def popSchedule (s : State) : State := { s with schedule := s.schedule.tail }

/-- The next step is made to run the instruction of a word (log 3): a host-operation word or a command word becomes the
host's next line and the host's turn comes next; a symbol becomes the one the encoder offers to a ready emitter, the last of
its train, and the encoder's turn comes next. -/
def placeWord (f : InstrWord) (s : State) : State :=
  match f with
  | .how w => { s with program := .how w :: s.program, schedule := .host :: s.schedule }
  | .cmd w => { s with program := .cmd w :: s.program, schedule := .host :: s.schedule }
  | .sym w =>
    { s with encSeq := [w], encIdx := 0, encBusy := true, emLeft := 0, schedule := .encoder :: s.schedule }

/-- The word a row's bits stand for, by the width the table gives the row (log 18). -/
def tableWord (nbits w : Nat) : InstrWord :=
  if nbits ≤ 24 then .sym (BitVec.ofNat 18 w)
  else if nbits ≤ 32 then .cmd (BitVec.ofNat 32 w)
  else .how (BitVec.ofNat 64 w)

end Sys2Proof.Machine
end

