-- ==== Sys2Proof/Machine/Assembler.lean ====
section
/-! DEFINITION. The notation for host programs (30 R80): RD and WR lines, the pseudo-instructions and their expansions, and
a reader of the text form. It is notation of the spec, not hardware: no step uses it. What the spec leaves open in the text
form is log 23. -/

namespace Sys2Proof.Machine

/-- `RD off` as a program line (30 R79). -/
def lineRd (off : Off) : HostLine := .how (howWord 0b00#2 off 0#32)

/-- `WR off, data` as a program line (30 R79). -/
def lineWr (off : Off) (data : Word) : HostLine := .how (howWord 0b01#2 off data)

/-- `NOP` expands to `WR CMD, 0x00` (30 R80). -/
def lineNop : HostLine := lineWr (regOffset .cmd) 0x00#32

/-- `ENCODE` expands to `WR CMD, 0x01` (30 R80). -/
def lineEncode : HostLine := lineWr (regOffset .cmd) 0x01#32

/-- `DECODE` expands to `WR CMD, 0x02` (30 R80). -/
def lineDecode : HostLine := lineWr (regOffset .cmd) 0x02#32

/-- `WAITENC` expands to `POLL ENC_STATUS, 0x1, 0x0` (30 R80). -/
def lineWaitenc : HostLine := .poll (regOffset .encStatus) 0x1#32 0x0#32

/-- The lines `WR <register base + 4·i>, v_i` for the values of a list, in order. -/
def storeLines (base : Nat) (vs : List Word) : List HostLine :=
  vs.zipIdx.map fun p => lineWr (BitVec.ofNat 11 (base + 4 * p.2)) p.1

/-- `LDFRAME b0, …, b(n−1)` with 1 ≤ n ≤ 10 (30 R80). -/
def ldFrame (bytes : List Word) : Option (List HostLine) :=
  if 1 ≤ bytes.length ∧ bytes.length ≤ 10 then
    some (lineWr (regOffset .frameLen) (BitVec.ofNat 32 bytes.length) :: storeLines 0x010 bytes)
  else none

/-- `LDCAP d0, …, d(n−1)` with n ≤ 255 (30 R80). -/
def ldCap (durs : List Word) : Option (List HostLine) :=
  if durs.length ≤ 255 then
    some (lineWr (regOffset .capCount) (BitVec.ofNat 32 durs.length) :: storeLines 0x400 durs)
  else none

/-- The value of a decimal digit. -/
def decDigit (c : Char) : Option Nat := if '0' ≤ c ∧ c ≤ '9' then some (c.toNat - 48) else none

/-- The value of a hexadecimal digit, of either case. -/
def hexDigit (c : Char) : Option Nat :=
  if '0' ≤ c ∧ c ≤ '9' then some (c.toNat - 48)
  else if 'a' ≤ c ∧ c ≤ 'f' then some (c.toNat - 87)
  else if 'A' ≤ c ∧ c ≤ 'F' then some (c.toNat - 55)
  else none

/-- The number written by a list of digits in a base. A `_` between two digits is skipped: R80 does not speak of it, and
42 R141 and 95 V-C12 write such lines (DESIGN CHOICE, log 23). -/
def digitsFrom (base : Nat) (digit : Char → Option Nat) : Nat → List Char → Option Nat
  | acc, [] => some acc
  | acc, '_' :: c :: cs =>
    match digit c with
    | none => none
    | some d => digitsFrom base digit (acc * base + d) cs
  | acc, c :: cs =>
    match digit c with
    | none => none
    | some d => digitsFrom base digit (acc * base + d) cs

/-- "a decimal or `0x` hexadecimal number" (30 R80); it begins with a digit. -/
def parseNat : List Char → Option Nat
  | '0' :: 'x' :: c :: cs => if c = '_' then none else digitsFrom 16 hexDigit 0 (c :: cs)
  | c :: cs => if c = '_' then none else digitsFrom 10 decDigit 0 (c :: cs)
  | [] => none

/-- The index in a register's name, as R80 lists the names (FRAME0 to FRAME9, CAP0 to CAP255): digits alone, and no leading
zero. -/
def parseIndex : List Char → Option Nat
  | [a] => decDigit a
  | [a, b] =>
    match decDigit a, decDigit b with
    | some x, some y => if x = 0 then none else some (10 * x + y)
    | _, _ => none
  | [a, b, c] =>
    match decDigit a, decDigit b, decDigit c with
    | some x, some y, some z => if x = 0 then none else some (100 * x + 10 * y + z)
    | _, _, _ => none
  | _ => none

/-- `<data>`: a number below 2^32 (30 R80). -/
def parseData (cs : List Char) : Option Word :=
  match parseNat cs with
  | some n => if n < 2 ^ 32 then some (BitVec.ofNat 32 n) else none
  | none => none

/-- A register's name, exactly as R80 lists them (10 R20, 30 R80). -/
def parseReg : List Char → Option Reg
  | ['C', 'M', 'D'] => some .cmd
  | ['E', 'N', 'C', '_', 'S', 'T', 'A', 'T', 'U', 'S'] => some .encStatus
  | ['D', 'E', 'C', '_', 'S', 'T', 'A', 'T', 'U', 'S'] => some .decStatus
  | ['F', 'R', 'A', 'M', 'E', '_', 'L', 'E', 'N'] => some .frameLen
  | ['C', 'A', 'P', '_', 'C', 'O', 'U', 'N', 'T'] => some .capCount
  | ['R', 'E', 'S', '_', 'B', 'I', 'T', 'S'] => some .resBits
  | ['R', 'E', 'S', '_', 'V', 'A', 'L', 'U', 'E'] => some .resValue
  | 'F' :: 'R' :: 'A' :: 'M' :: 'E' :: cs =>
    match parseIndex cs with
    | some n => if h : n < 10 then some (.frame ⟨n, h⟩) else none
    | none => none
  | 'C' :: 'A' :: 'P' :: cs =>
    match parseIndex cs with
    | some n => if h : n < 256 then some (.cap ⟨n, h⟩) else none
    | none => none
  | _ => none

/-- `<off>`: a register name or a numeric offset (30 R80), in the window and a multiple of 4 (30 R79). -/
def parseOff (cs : List Char) : Option Off :=
  match parseReg cs with
  | some r => some (regOffset r)
  | none =>
    match parseNat cs with
    | some n => if n < 2 ^ 11 ∧ n % 4 = 0 then some (BitVec.ofNat 11 n) else none
    | none => none

/-- A list of `<data>`. -/
def parseDatas : List (List Char) → Option (List Word)
  | [] => some []
  | t :: ts =>
    match parseData t, parseDatas ts with
    | some v, some vs => some (v :: vs)
    | _, _ => none

/-- A line's tokens, up to a `;` comment (30 R80). A comma separates exactly as a blank does, so a missing, doubled or leading
comma is accepted, and tabs and carriage returns count as blanks (DESIGN CHOICE, log 23: R80 writes one comma between two
operands and says nothing of a line written otherwise). -/
def tokens : List Char → List Char → List (List Char)
  | cur, [] => if cur.isEmpty then [] else [cur.reverse]
  | cur, ';' :: _ => if cur.isEmpty then [] else [cur.reverse]
  | cur, c :: cs =>
    if c = ' ' ∨ c = ',' ∨ c = '\t' ∨ c = '\r' then
      (if cur.isEmpty then tokens [] cs else cur.reverse :: tokens [] cs)
    else tokens (c :: cur) cs

/-- The lines a line of text stands for, its pseudo-instruction expanded (30 R80); an empty line stands for none. -/
def parseLine : List (List Char) → Option (List HostLine)
  | [] => some []
  | [['R', 'D'], off] => (parseOff off).map fun o => [lineRd o]
  | [['W', 'R'], off, data] =>
    match parseOff off, parseData data with
    | some o, some v => some [lineWr o v]
    | _, _ => none
  | [['N', 'O', 'P']] => some [lineNop]
  | [['E', 'N', 'C', 'O', 'D', 'E']] => some [lineEncode]
  | [['D', 'E', 'C', 'O', 'D', 'E']] => some [lineDecode]
  | [['W', 'A', 'I', 'T', 'E', 'N', 'C']] => some [lineWaitenc]
  | [['P', 'O', 'L', 'L'], off, mask, value] =>
    match parseOff off, parseData mask, parseData value with
    | some o, some m, some v => some [.poll o m v]
    | _, _, _ => none
  | ['L', 'D', 'F', 'R', 'A', 'M', 'E'] :: bytes =>
    match parseDatas bytes with
    | some vs => ldFrame vs
    | none => none
  | ['L', 'D', 'C', 'A', 'P'] :: durs =>
    match parseDatas durs with
    | some vs => ldCap vs
    | none => none
  | _ => none

/-- The text's lines. -/
def textLines : List Char → List Char → List (List Char)
  | cur, [] => [cur.reverse]
  | cur, '\n' :: cs => cur.reverse :: textLines [] cs
  | cur, c :: cs => textLines (c :: cur) cs

/-- The program lines of a list of text lines, if every line is one of the notation's. -/
def assembleLines : List (List Char) → Option (List HostLine)
  | [] => some []
  | l :: ls =>
    match parseLine (tokens [] l), assembleLines ls with
    | some a, some b => some (a ++ b)
    | _, _ => none

/-- A host program from its text (30 R80: "one operation per line"). -/
def assemble (text : List Char) : Option (List HostLine) := assembleLines (textLines [] text)

end Sys2Proof.Machine
end

