-- ==== Sys2Proof/Machine/Frames.lean ====
section
/-! DEFINITION. The host-side frame catalogue (00 section 5, R8 to R15). It is outside the block: no step uses it. It is
written down so that claims and tests can name the frames the surrounding software hands to the block. -/

namespace Sys2Proof.Machine

/-- What can go wrong between the caller and the Frame Builder (00 R15). A malformed command kind, InvalidArgument, "should
be unreachable": `LogicalCommand` has no value for it. -/
inductive HostError where
  | invalidArgument
  | outOfRange
  deriving DecidableEq, Repr

/-- The commands the caller builds frames for (00 R8 to R12, R14). -/
inductive LogicalCommand where
  | power (tempC mode fan : Nat) (pure : Bool)
  | highPower
  | sleep
  | swing
  | upDown
  deriving DecidableEq, Repr

/-- The XOR-fold of a list of bytes (00 R8). -/
def xorFold (bs : List Byte) : Byte := bs.foldl (· ^^^ ·) 0#8

/-- The bytes of a power-mode frame before its checksum (00 R8). -/
def powerBody (param0 param1 param2 : Byte) : List Byte := [0xF2, 0x0D, 0x03, 0xFC, 0x01, param0, param1, param2]

/-- The power-mode frame (00 R8): the only one with a computed checksum (00 R13). -/
def powerFrame (param0 param1 param2 : Byte) : List Byte :=
  powerBody param0 param1 param2 ++ [xorFold (powerBody param0 param1 param2)]

/-- The high-power frame (00 R9). -/
def highPowerFrame : List Byte := [0xF2, 0x0D, 0x04, 0xFB, 0x09, 0x00, 0x00, 0x00, 0x01, 0x08]

/-- The sleep frame (00 R10). -/
def sleepFrame : List Byte := [0xF2, 0x0D, 0x04, 0xFB, 0x09, 0x00, 0x00, 0x00, 0x03, 0x0A]

/-- The swing frame (00 R11). -/
def swingFrame : List Byte := [0xF2, 0x0D, 0x01, 0xFE, 0x21, 0x04, 0x25]

/-- The up-down frame (00 R12). -/
def upDownFrame : List Byte := [0xF2, 0x0D, 0x01, 0xFE, 0x21, 0x00, 0x21]

/-- param0 (00 R14): the temperature offset in bits 3:0. -/
def packParam0 (tempC : Nat) : Byte := 0#4 ++ BitVec.ofNat 4 (tempC - 17)

/-- param1 (00 R14): the mode in bits 3:0, the fan speed in bits 6:4, bit 7 unused. That the unused bit is 0 is the model's
DESIGN CHOICE (log 32): the rule gives it no value. -/
def packParam1 (mode fan : Nat) : Byte := 0#1 ++ BitVec.ofNat 3 fan ++ BitVec.ofNat 4 mode

/-- param2 (00 R14): the purifier flag, "at a fixed bit position" the source does not give (93 I15: a parameter, log 22).
That every other bit is 0 is the model's DESIGN CHOICE (log 32): the rule gives them no value. The position is an unbounded
number, and one of 8 or more, which param2 does not have, drops the flag: the byte is 0 (DESIGN CHOICE, log 22). -/
def packParam2 (purifierBit : Nat) (pure : Bool) : Byte := if pure then 1#8 <<< purifierBit else 0#8

/-- The frame of a command (00 R8 to R14), with the purifier flag's bit position as a parameter (log 22). -/
def buildFrame (purifierBit : Nat) : LogicalCommand → Except HostError (List Byte)
  | .power tempC mode fan pure =>
    if 17 ≤ tempC ∧ tempC ≤ 30 ∧ mode ∈ [0, 1, 2, 3, 7] ∧ fan ∈ [0, 2, 3, 4, 5, 6] then
      .ok (powerFrame (packParam0 tempC) (packParam1 mode fan) (packParam2 purifierBit pure))
    else .error .outOfRange
  | .highPower => .ok highPowerFrame
  | .sleep => .ok sleepFrame
  | .swing => .ok swingFrame
  | .upDown => .ok upDownFrame

end Sys2Proof.Machine
end

