-- ==== Sys2Proof/Safety.lean ====
section
/-! DEFINITION. What a good state and a safe run are, and the words the statements use about steps: the invariant that rules
out the states no run reaches, which instruction the host runs in a step, and the fair schedule of a train. -/

namespace Sys2Proof.Machine

/-- A frame of a legal length: 7, 9 or 10 bytes (00 R7). -/
abbrev LegalFrame (f : List Byte) : Prop := f.length ∈ legalLen

/-- The failure codes and the positions that go with them (10 R29, 60 R151). -/
def FailPosMatches (code : DecErr) (pos : Nat) : Prop :=
  match code with
  | .none => False
  | .len => pos = 0
  | .hdrMark => pos = 1
  | .hdrSpace => pos = 2
  | .bitMark => ∃ i < 32, pos = 3 + 2 * i
  | .bitSpace => ∃ i < 32, pos = 4 + 2 * i

/-- The states the block and its emitter can be in. -/
structure State.Inv (s : State) : Prop where
  /-- The train in flight is the symbols of a legal frame, and a symbol of it is still to be handed over (10 R36, 40 R93). -/
  train : s.encBusy = true →
    ∃ f, LegalFrame f ∧ s.encSeq = (symbols f).map symbolWord ∧ s.encIdx < s.encSeq.length
  /-- The emitter has accepted the symbols before `enc_idx`, in order, each exactly once (20 R65). -/
  handed : s.encBusy = true → ∃ before, s.sent = before ++ s.encSeq.take s.encIdx
  /-- DONE is 0 while BUSY is 1 (10 R24). -/
  busyNotDone : s.encBusy = true → s.encDone = false
  /-- The line is off and the emitter ready while the block is idle or a train's first symbol is still to be handed over
  (60 R164, 30 R76). -/
  idleLine : s.encBusy = false ∨ s.encIdx = 0 → s.emLine = .off ∧ s.emLeft = 0
  /-- The carrier is 38 kHz from the first symbol of a train on (00 R4, 70 R172). -/
  carrierSet : s.encBusy = true → 0 < s.encIdx → s.emCarrier = carrierKhz
  /-- What is left of a symbol's duration fits its ARG (30 R74). -/
  leftBound : s.emLeft < 2 ^ 16
  /-- Before the first DECODE the decoder's registers hold their reset values (10 R26, R42). -/
  undecoded : s.decDone = false →
    s.decOk = false ∧ s.decErr = .none ∧ s.failPos = 0#8 ∧ s.resBits = 0#7 ∧ s.resValue = 0#32
  /-- After a successful DECODE (10 R27, R28, R29, R34). -/
  decoded : s.decOk = true →
    s.decDone = true ∧ s.decErr = .none ∧ s.failPos = 0#8 ∧ s.resBits.toNat ∈ legalBits
  /-- After a failed DECODE the position belongs to the code (10 R29, 60 R151). -/
  mismatched : s.decDone = true → s.decOk = false → FailPosMatches s.decErr s.failPos.toNat

/-- A step that does not fault. -/
def State.Safe (s : State) : Prop := ∀ r, step s ≠ .fault r

/-- The next step is the host's, and it runs the instruction `i` of its next line. -/
def HostRuns (s : State) (i : Instr) : Prop :=
  nextTurn s = .host ∧
    ∃ line rest, s.program = line :: rest ∧
      match line with
      | .how w => decode (.how w) = .ok i
      | .cmd w => decode (.cmd w) = .ok i
      | .access a => a.width = .w32 ∧ i = (if a.write then .wr a.off a.data else .rd a.off)
      | .poll off _ _ => i = .rd off

/-- The next step runs a CMD command of OPCODE `opcode`, written as a command word or by a WR to CMD (42 R144). -/
def RunsCommand (s : State) (opcode : BitVec 8) : Prop :=
  ∃ i, HostRuns s i ∧
    match i with
    | .nop _ => opcode = 0x00#8
    | .encodeCmd _ => opcode = 0x01#8
    | .decodeCmd _ => opcode = 0x02#8
    | .reservedCmd op _ => opcode = op
    | .wr off v => off = regOffset .cmd ∧ opcode = opcodeOf v
    | .rd _ => False
    | .carrier _ => False
    | .mark _ => False
    | .space _ => False

/-- A schedule under which the emitter keeps becoming ready and the encoder keeps getting its turn (70 R181): `k` times,
time enough for any symbol passes, and then a hand-over. -/
def fairTurns (k : Nat) : List Turn := (List.replicate k [Turn.elapse 65535, Turn.encoder]).flatten

/-- The machine after reset with a host program and an order of the agents loaded from outside (log 3). -/
def State.loaded (program : List HostLine) (schedule : List Turn) : State :=
  { State.reset with program := program, schedule := schedule }

end Sys2Proof.Machine
end

