-- ==== Sys2Proof/Certificates/Slice0/Obligations.lean ====
section
/-! DEFINITION. The statements for the provers. Each docstring names the rule of spec/ it formalises. Where a statement
speaks of a free value it holds for every value of it. -/

open Sys2Proof Sys2Proof.Machine

/-! ### Encodings -/

/-- 30 R70, R71, R74, R79: decoding the word of a well-formed instruction gives the instruction back, every field at every
value, the ignored bits of a command word among them. -/
def Obligations.DecodeAfterEncode : Prop :=
  ∀ i : Instr, WellFormed i = true → decode (encode i) = .ok i

/-- 30 R70, R71, R74, R79: a word that decodes stands for one well-formed instruction, whose encoding is that very word. -/
def Obligations.EncodeAfterDecode : Prop :=
  ∀ (f : InstrWord) (i : Instr), decode f = .ok i → WellFormed i = true ∧ encode i = f

/-- 30 R71: OPCODE alone, the word under the mask 0x0000_00FF, selects the command. -/
def Obligations.OpcodeAloneSelectsCommand : Prop :=
  ∀ w : Word,
    (w &&& 0x000000FF#32 = 0x00#32 ↔ ∃ ign, decode (.cmd w) = .ok (.nop ign)) ∧
    (w &&& 0x000000FF#32 = 0x01#32 ↔ ∃ ign, decode (.cmd w) = .ok (.encodeCmd ign)) ∧
    (w &&& 0x000000FF#32 = 0x02#32 ↔ ∃ ign, decode (.cmd w) = .ok (.decodeCmd ign)) ∧
    (0x03#32 ≤ w &&& 0x000000FF#32 ↔ ∃ opcode ign, decode (.cmd w) = .ok (.reservedCmd opcode ign))

/-- 30 R79: a host-operation word is admitted exactly when it meets the constraints, and then it is the RD or the WR of its
OFF and DATA; a word that breaks one is refused by the host's turn. The fields are written as numbers: OP is the word
divided by 2^62, and so on. -/
def Obligations.HostOperationWords : Prop :=
  ∀ (w : HowWord) (s : State) (rest : List HostLine),
    let op := w.toNat / 2 ^ 62
    let gap := w.toNat / 2 ^ 43 % 2 ^ 19
    let off := w.toNat / 2 ^ 32 % 2 ^ 11
    let data := w.toNat % 2 ^ 32
    (op = 0 ∧ gap = 0 ∧ off % 4 = 0 ∧ data = 0 → decode (.how w) = .ok (.rd (BitVec.ofNat 11 off))) ∧
    (op = 1 ∧ gap = 0 ∧ off % 4 = 0 →
      decode (.how w) = .ok (.wr (BitVec.ofNat 11 off) (BitVec.ofNat 32 data))) ∧
    (2 ≤ op ∨ gap ≠ 0 ∨ off % 4 ≠ 0 ∨ (op = 0 ∧ data ≠ 0) →
      nextTurn s = .host → s.program = .how w :: rest → ∃ r, step s = .refused (.inadmissible r))

/-- 30 R74: KIND selects the symbol, ARG is bits 15:0, and KIND 0b11 stands for no symbol. -/
def Obligations.SymbolKinds : Prop :=
  ∀ w : SymWord,
    let kind := w.toNat / 2 ^ 16
    let arg := BitVec.ofNat 16 w.toNat
    (kind = 0 → decode (.sym w) = .ok (.carrier arg)) ∧
    (kind = 1 → decode (.sym w) = .ok (.mark arg)) ∧
    (kind = 2 → decode (.sym w) = .ok (.space arg)) ∧
    (kind = 3 → decode (.sym w) = .error .symKind)

/-- 30 R71, R74, R79: a few words written out from the spec's encodings and its worked encodings decode to the instructions
they stand for. -/
def Obligations.WrittenOutWordsDecode : Prop :=
  decode (.cmd 0b00000000000000000000000000000000#32) = .ok (.nop 0) ∧
  decode (.cmd 0b11111111111111111111111100000001#32) = .ok (.encodeCmd 0xFFFFFF) ∧
  decode (.cmd 0b00000000000000000000000000000010#32) = .ok (.decodeCmd 0) ∧
  decode (.cmd 0b00000000000000000000000001111111#32) = .ok (.reservedCmd 0x7F 0) ∧
  decode (.how 0x0000000400000000#64) = .ok (.rd 0x004) ∧
  decode (.how 0x4000040C00000226#64) = .ok (.wr 0x40C 550) ∧
  decode (.sym 0b000000000000100110#18) = .ok (.carrier 38) ∧
  decode (.sym 0b010001000100110000#18) = .ok (.mark 4400) ∧
  decode (.sym 0b100000011001000000#18) = .ok (.space 1600)

/-- spec/opcode_table.json: a word that decodes belongs to its instruction's row, and a word of any row but RESERVED_CMD
(which is matched last) decodes to an instruction of that row. -/
def Obligations.TableRowsAreTheDecoder : Prop :=
  (∀ f i, decode f = .ok i → InRow f (rowOf i) ∧ rowOf i ∈ opcodeTable) ∧
  (∀ f, ∀ r ∈ opcodeTable, r.mnemonic ≠ "RESERVED_CMD" → InRow f r → ∃ i, decode f = .ok i ∧ rowOf i = r)

/-! ### The step -/

/-- 20 R60, 40 R94, 42 R145: a step runs the decoded instruction. On the host's turn it is the instruction of the next
program line, with the line and the turn used up; on the encoder's turn, with BUSY = 1 and the emitter ready, it is the
offered symbol's, with the encoder advanced. -/
def Obligations.StepRunsDecodedInstruction : Prop :=
  ∀ (s : State) (i : Instr) (rest : List HostLine),
    (∀ w, nextTurn s = .host → s.program = .how w :: rest → decode (.how w) = .ok i →
      step s = exec i { popSchedule s with program := rest }) ∧
    (∀ w, nextTurn s = .host → s.program = .cmd w :: rest → decode (.cmd w) = .ok i →
      step s = exec i { popSchedule s with program := rest }) ∧
    (∀ w, nextTurn s = .encoder → s.encBusy = true → s.emLeft = 0 → s.encSeq[s.encIdx]? = some w →
      decode (.sym w) = .ok i → step s = exec i (advanceEncoder (popSchedule s)))

/-- The model's own (log 3): a word placed to be run next is what the very next step runs. -/
def Obligations.PlacedWordRunsNext : Prop :=
  ∀ (s : State) (i : Instr),
    (∀ w, decode (.how w) = .ok i → step (placeWord (.how w) s) = exec i s) ∧
    (∀ w, decode (.cmd w) = .ok i → step (placeWord (.cmd w) s) = exec i s) ∧
    (∀ w, decode (.sym w) = .ok i → step (placeWord (.sym w) s) =
      exec i { s with encSeq := [w], encIdx := 1, encBusy := false, encDone := true, emLeft := 0 })

/-! ### The register window -/

/-- 10 R20: the register map, offset by offset; every other offset is unmapped. -/
def Obligations.RegisterMap : Prop :=
  (regAt 0x000 = some .cmd ∧ regAt 0x004 = some .encStatus ∧ regAt 0x008 = some .decStatus ∧
    regAt 0x00C = some .frameLen ∧ regAt 0x040 = some .capCount ∧ regAt 0x044 = some .resBits ∧
    regAt 0x048 = some .resValue) ∧
  (∀ i : Fin 10, regAt (BitVec.ofNat 11 (0x010 + 4 * i.val)) = some (.frame i)) ∧
  (∀ i : Fin 256, regAt (BitVec.ofNat 11 (0x400 + 4 * i.val)) = some (.cap i)) ∧
  (∀ off r, regAt off = some r ↔ off = regOffset r)

/-- 42 R140, 20 R54: RD returns the register's fields in place with every other bit 0, written as numbers; CMD and an
unmapped offset return 0. It completes for every aligned offset, changes nothing but what the host has read, and is refused
for any other offset and, on the bus, for any other width. -/
def Obligations.RdReturnsTheRegister : Prop :=
  ∀ (off : Off) (s : State),
    let encErr : Nat := match s.encErr with | .none => 0 | .badLen => 1 | .busy => 2
    let decErr : Nat := match s.decErr with
      | .none => 0 | .len => 1 | .hdrMark => 2 | .hdrSpace => 3 | .bitMark => 4 | .bitSpace => 5
    (off.toNat % 4 = 0 → ∃ v, exec (.rd off) s = .next { s with busData := v } ∧
      (off = 0x000 → v = 0#32) ∧
      (off = 0x004 → v.toNat = encErr * 4 + s.encDone.toNat * 2 + s.encBusy.toNat) ∧
      (off = 0x008 → v.toNat = s.failPos.toNat * 256 + decErr * 4 + s.decOk.toNat * 2 + s.decDone.toNat) ∧
      (off = 0x00C → v.toNat = s.frameLen.toNat) ∧
      (∀ i : Fin 10, off.toNat = 0x010 + 4 * i.val → v.toNat = s.frame[i].toNat) ∧
      (off = 0x040 → v.toNat = s.capCount.toNat) ∧
      (off = 0x044 → v.toNat = s.resBits.toNat) ∧
      (off = 0x048 → v = s.resValue) ∧
      (∀ i : Fin 256, off.toNat = 0x400 + 4 * i.val → v.toNat = s.cap[i].toNat) ∧
      (0x038 ≤ off.toNat ∧ off.toNat ≤ 0x03C ∨ 0x04C ≤ off.toNat ∧ off.toNat ≤ 0x3FC → v = 0#32)) ∧
    (off.toNat % 4 ≠ 0 → exec (.rd off) s = .refused .misalignedAccess) ∧
    (∀ a : Access, a.write = false → a.width ≠ .w32 → runAccess a s = .refused .narrowAccess)

/-- 42 R141, 20 R54: WR, offset by offset. A read-write register keeps DATA mod 2^W, a read-only register and an unmapped
offset ignore the write, a write to CMD runs the command of DATA; any other offset and, on the bus, any other width is
refused. Every other field of the state is as before. -/
def Obligations.WrStoresTheField : Prop :=
  ∀ (off : Off) (data : Word) (s : State),
    (off = 0x000 → exec (.wr off data) s = exec (decodeCmdWord data) s ∧ ∃ t, exec (.wr off data) s = .next t) ∧
    (off = 0x00C → exec (.wr off data) s = .next { s with frameLen := BitVec.ofNat 4 data.toNat }) ∧
    (∀ i : Fin 10, off.toNat = 0x010 + 4 * i.val →
      exec (.wr off data) s = .next { s with frame := s.frame.set i (BitVec.ofNat 8 data.toNat) }) ∧
    (off = 0x040 → exec (.wr off data) s = .next { s with capCount := BitVec.ofNat 8 data.toNat }) ∧
    (∀ i : Fin 256, off.toNat = 0x400 + 4 * i.val →
      exec (.wr off data) s = .next { s with cap := s.cap.set i (BitVec.ofNat 16 data.toNat) }) ∧
    (off = 0x004 ∨ off = 0x008 ∨ off = 0x044 ∨ off = 0x048 → exec (.wr off data) s = .next s) ∧
    (off.toNat % 4 = 0 ∧ (0x038 ≤ off.toNat ∧ off.toNat ≤ 0x03C ∨ 0x04C ≤ off.toNat ∧ off.toNat ≤ 0x3FC) →
      exec (.wr off data) s = .next s) ∧
    (off.toNat % 4 ≠ 0 → exec (.wr off data) s = .refused .misalignedAccess) ∧
    (∀ a : Access, a.write = true → a.width ≠ .w32 → runAccess a s = .refused .narrowAccess)

/-- 20 R53: on the host's turn, an access of another width or at an offset that is not a multiple of 4 is refused, and an
aligned 32-bit access is the RD or WR of its offset. -/
def Obligations.OnlyAlignedWordAccesses : Prop :=
  ∀ (s : State) (a : Access) (rest : List HostLine), nextTurn s = .host → s.program = .access a :: rest →
    (a.width ≠ .w32 → step s = .refused .narrowAccess) ∧
    (a.width = .w32 → a.off.toNat % 4 ≠ 0 → step s = .refused .misalignedAccess) ∧
    (a.width = .w32 → a.off.toNat % 4 = 0 → a.write = true →
      ∃ t, step s = .next t ∧ exec (.wr a.off a.data) { popSchedule s with program := rest } = .next t) ∧
    (a.width = .w32 → a.off.toNat % 4 = 0 → a.write = false →
      ∃ t, step s = .next t ∧ exec (.rd a.off) { popSchedule s with program := rest } = .next t)

/-- 20 R59, 10 R40: a read after a write to a read-write register returns the bits last written, cut to the field's width;
a read after a write to any other register returns what it held. -/
def Obligations.ReadAfterWrite : Prop :=
  ∀ (r q : Reg) (v : Word) (s : State), r ≠ .cmd →
    ∃ t u, exec (.wr (regOffset r) v) s = .next t ∧ exec (.rd (regOffset q)) t = .next u ∧
      (q ≠ r → u.busData = readReg q s) ∧
      (q = r →
        match r with
        | .frameLen => u.busData.toNat = v.toNat % 2 ^ 4
        | .frame _ => u.busData.toNat = v.toNat % 2 ^ 8
        | .capCount => u.busData.toNat = v.toNat % 2 ^ 8
        | .cap _ => u.busData.toNat = v.toNat % 2 ^ 16
        | _ => u.busData = readReg r s)

/-- 20 R55: reads have no side effects: two reads of one offset with nothing in between return the same word, and the second
leaves the state as the first left it. -/
def Obligations.ReadsHaveNoSideEffects : Prop :=
  ∀ (off : Off) (s : State), offAligned off = true →
    ∃ t, exec (.rd off) s = .next t ∧ t = { s with busData := t.busData } ∧ exec (.rd off) t = .next t

/-- 20 R55, 42 R141: the frame of WR. A WR to an offset other than CMD's leaves every register at another offset reading as
before, and everything that is no register: the train in flight, the emitter, the host's read data and program, the order of
the agents, the parameter and the free values drawn. -/
def Obligations.WrFrame : Prop :=
  ∀ (off : Off) (data : Word) (s : State), offAligned off = true → off ≠ regOffset .cmd →
    ∃ t, exec (.wr off data) s = .next t ∧
      (∀ r : Reg, regOffset r ≠ off → readReg r t = readReg r s) ∧
      t = { s with frameLen := t.frameLen, frame := t.frame, capCount := t.capCount, cap := t.cap }

/-! ### NOP and the reserved commands -/

/-- 42 R142, R143: NOP and every reserved opcode change no state and record no error, as a command word and as a WR to CMD,
in whatever state, a train in flight or not. -/
def Obligations.NopAndReservedChangeNothing : Prop :=
  (∀ ign s, exec (.nop ign) s = .next s) ∧
  (∀ opcode ign s, exec (.reservedCmd opcode ign) s = .next s) ∧
  (∀ (v : Word) (s : State), v.toNat % 256 = 0 ∨ 3 ≤ v.toNat % 256 →
    exec (decodeCmdWord v) s = .next s ∧ exec (.wr 0x000 v) s = .next s)

/-! ### The encoder -/

/-- 40 R90, R91, 20 R57: the symbol sequence position by position: the carrier, the header, for bit `k` of byte `j` (most
significant first) a bit mark and a one-space or zero-space, the trailer mark and the idle sentinel. -/
def Obligations.SymbolSequence : Prop :=
  ∀ f : List Byte,
    (symbols f)[0]? = some (.carrier 38) ∧
    (symbols f)[1]? = some (.mark 4400) ∧
    (symbols f)[2]? = some (.space 4400) ∧
    (∀ (j k : Nat) (b : Byte), k < 8 → f[j]? = some b →
      (symbols f)[3 + 16 * j + 2 * k]? = some (.mark 550) ∧
      (symbols f)[4 + 16 * j + 2 * k]? = some (.space (if b.getLsbD (7 - k) then 1600 else 550))) ∧
    (symbols f)[3 + 16 * f.length]? = some (.mark 550) ∧
    (symbols f)[4 + 16 * f.length]? = some (.space 0) ∧
    (symbols f)[5 + 16 * f.length]? = none

/-- 40 R92: the counts of a train. -/
def Obligations.TrainCounts : Prop :=
  ∀ f : List Byte,
    let isMark : Symbol → Bool := fun y => match y with | .mark _ => true | _ => false
    let isSpace : Symbol → Bool := fun y => match y with | .space _ => true | _ => false
    (train f).length = 16 * f.length + 4 ∧
    (train f).countP (fun y => symbolUs y != 0) = 16 * f.length + 3 ∧
    (train f).countP isMark = 8 * f.length + 2 ∧
    (train f).countP isSpace = 8 * f.length + 2 ∧
    (symbols f).length = 16 * f.length + 5

/-- 40 R100: the line time of a train. -/
def Obligations.LineTime : Prop :=
  ∀ f : List Byte,
    lineTime (train f) =
      9350 + 1100 * (8 * f.length) + 1050 * (f.map fun b => (List.range 8).countP fun k => b.getLsbD k).sum

/-- 40 R93, 60 R156, R152, 10 R37: the ENCODE command. Accepted when BUSY = 0 and FRAME_LEN is 7, 9 or 10, it takes a
snapshot of the frame bytes; refused with BUSY while a train is in flight, whatever FRAME_LEN holds; refused with BAD_LEN
otherwise. A refusal writes ERR and nothing else. A write to CMD with bits 7:0 = 0x01 is an ENCODE whatever bits 31:8 hold. -/
def Obligations.EncodeCommand : Prop :=
  ∀ (ign : BitVec 24) (s : State),
    (s.encBusy = false → s.frameLen.toNat ∈ [7, 9, 10] →
      ∀ f : List Byte, f.length = s.frameLen.toNat → (∀ j, j < f.length → f[j]? = s.frame[j]?) →
        exec (.encodeCmd ign) s =
          .next { s with
            encSeq := (symbols f).map symbolWord, encIdx := 0, encBusy := true, encDone := false, encErr := .none }) ∧
    (s.encBusy = false → s.frameLen.toNat ∉ [7, 9, 10] →
      exec (.encodeCmd ign) s = .next { s with encErr := .badLen }) ∧
    (s.encBusy = true → exec (.encodeCmd ign) s = .next { s with encErr := .busy }) ∧
    (∀ v : Word, v.toNat % 256 = 1 → exec (.wr 0x000 v) s = exec (.encodeCmd ign) s)

/-- 40 R94: the encoder step. With BUSY = 1 and the emitter ready, the symbol at `enc_idx` passes to the emitter, `enc_idx`
rises by 1, and at the end of the train BUSY falls and DONE rises; no register the host writes is read or changed, nor ERR,
nor anything of the decoder. That a turn of the encoder is taken at all when the hand-over is not enabled, and then passes
with no effect, is the model's choice (log 1). -/
def Obligations.EncoderHandover : Prop :=
  ∀ (s : State), nextTurn s = .encoder →
    (s.encBusy = true → s.emLeft = 0 → ∀ y : Symbol, s.encSeq[s.encIdx]? = some (symbolWord y) →
      ∃ t, step s = .next t ∧
        t.sent = s.sent ++ [symbolWord y] ∧
        t.encIdx = s.encIdx + 1 ∧
        t.encBusy = decide (s.encIdx + 1 ≠ s.encSeq.length) ∧
        t.encDone = (s.encDone || decide (s.encIdx + 1 = s.encSeq.length)) ∧
        t = { s with
          schedule := s.schedule.tail, sent := t.sent, encIdx := t.encIdx, encBusy := t.encBusy, encDone := t.encDone
          emLine := t.emLine, emCarrier := t.emCarrier, emLeft := t.emLeft }) ∧
    (s.encBusy = false ∨ s.emLeft ≠ 0 → step s = .next { s with schedule := s.schedule.tail })

/-- 40 R95: the hand-over that completes a train passes `SPACE(0)`, sets BUSY to 0 and DONE to 1, leaves ERR, and leaves the
line off with the emitter ready at once. -/
def Obligations.CompletionPassesTheSentinel : Prop :=
  ∀ s t : State, s.Inv → nextTurn s = .encoder → s.encBusy = true → step s = .next t → t.encBusy = false →
    s.encSeq[s.encIdx]? = some (symbolWord (.space 0)) ∧ t.sent = s.sent ++ [symbolWord (.space 0)] ∧
      t.encDone = true ∧ t.encErr = s.encErr ∧ t.emLine = .off ∧ t.emLeft = 0

/-- 40 R96, 10 R36, R37: a train in flight is cut short by nothing but reset. Whatever a step does, the train afterwards is
the same train at the same index, or one symbol further, or it was completed by its last hand-over. -/
def Obligations.NoCancellation : Prop :=
  ∀ s t : State, s.encBusy = true → step s = .next t → nextTurn s ≠ .reset →
    (t.encBusy = true ∧ t.encSeq = s.encSeq ∧
      (t.encIdx = s.encIdx ∧ t.sent = s.sent ∨
        t.encIdx = s.encIdx + 1 ∧ ∃ w, s.encSeq[s.encIdx]? = some w ∧ t.sent = s.sent ++ [w])) ∨
    (t.encBusy = false ∧ t.encDone = true ∧ t.encIdx = s.encIdx + 1 ∧ t.encIdx = s.encSeq.length ∧
      ∃ w, s.encSeq[s.encIdx]? = some w ∧ t.sent = s.sent ++ [w])

/-- 30 R75: while a symbol is offered and not accepted, it is held unchanged: every step but a reset either leaves the
offered symbol as it is or has the emitter accept exactly it. -/
def Obligations.OfferedSymbolIsHeld : Prop :=
  ∀ s t : State, symValid s = true → step s = .next t → nextTurn s ≠ .reset →
    (symValid t = true ∧ symData t = symData s ∧ t.sent = s.sent) ∨
    (nextTurn s = .encoder ∧ symReady s = true ∧ ∃ w, symData s = some w ∧ t.sent = s.sent ++ [w])

/-- 70 R181, 20 R65: under a schedule that keeps the emitter becoming ready, an accepted train is handed over symbol by
symbol, in order, each exactly once, and BUSY falls and DONE rises with the last, after exactly as many hand-overs as the
train has symbols (117, 149 or 165); nothing the host sees changes but BUSY and DONE, and the host's program waits. The schedule (log 1) with its turns of time
(log 29) is the model's form of that fairness. -/
def Obligations.FairTrainCompletes : Prop :=
  ∀ (s : State) (f : List Byte) (later : List Turn) (k : Nat), LegalFrame f →
    s.encBusy = true → s.encDone = false → s.encSeq = (symbols f).map symbolWord → s.encIdx = 0 → s.emLeft < 2 ^ 16 →
    s.schedule = fairTurns (16 * f.length + 5) ++ later → k ≤ 16 * f.length + 5 →
    ∃ t : State, core.run (2 * k) s = .next t ∧
      t.encIdx = k ∧
      t.sent = s.sent ++ ((symbols f).map symbolWord).take k ∧
      t.encBusy = decide (k < 16 * f.length + 5) ∧
      t.encDone = decide (k = 16 * f.length + 5) ∧
      t.schedule = fairTurns (16 * f.length + 5 - k) ++ later ∧
      (k = 16 * f.length + 5 → t.emLine = .off ∧ t.emLeft = 0 ∧ t.emCarrier = 38) ∧
      t = { s with
        encIdx := t.encIdx, sent := t.sent, encBusy := t.encBusy, encDone := t.encDone, schedule := t.schedule
        emLine := t.emLine, emCarrier := t.emCarrier, emLeft := t.emLeft, draws := t.draws }

/-- 93 I13, 70 R181: without fairness BUSY = 1 may last forever: while the emitter is given no time, no turn of the host or
of the encoder completes the train or makes the emitter ready. -/
def Obligations.UnreadyEmitterHangs : Prop :=
  ∀ s t : State, s.encBusy = true → s.emLeft ≠ 0 → nextTurn s = .host ∨ nextTurn s = .encoder → step s = .next t →
    t.encBusy = true ∧ t.emLeft = s.emLeft ∧ t.encIdx = s.encIdx ∧ t.encSeq = s.encSeq ∧ t.sent = s.sent

/-- 60 R158: an ENCODE written while the last symbol is offered to a ready emitter may land before the hand-over, and is
then refused with BUSY though the train completes, or after it, and is then accepted; both orders are runs. -/
def Obligations.EncodeRacesTheLastHandover : Prop :=
  ∀ (s : State) (w : Word) (rest : List HostLine) (later : List Turn),
    s.encBusy = true → s.encIdx + 1 = s.encSeq.length → s.encSeq[s.encIdx]? = some (symbolWord (.space 0)) →
    s.emLeft = 0 → s.frameLen.toNat ∈ [7, 9, 10] → s.program = .cmd w :: rest → w.toNat % 256 = 1 →
    (∃ t : State, core.run 2 { s with schedule := .host :: .encoder :: later } = .next t ∧
      t.encBusy = false ∧ t.encDone = true ∧ t.encErr = .busy ∧ t.program = rest ∧ t.schedule = later) ∧
    (∃ t : State, core.run 2 { s with schedule := .encoder :: .host :: later } = .next t ∧
      t.encBusy = true ∧ t.encDone = false ∧ t.encErr = .none ∧ t.encIdx = 0 ∧
      t.encSeq = (symbols (frameBytes s)).map symbolWord ∧ t.program = rest ∧ t.schedule = later)

/-! ### The decoder -/

/-- 41 R110: the bands for integer durations at T = 0, 10, 25 and 48, ends included. -/
def Obligations.ToleranceBands : Prop :=
  ∀ d : Nat,
    (inBand 0 d 550 = true ↔ d = 550) ∧ (inBand 10 d 550 = true ↔ 495 ≤ d ∧ d ≤ 605) ∧
    (inBand 25 d 550 = true ↔ 413 ≤ d ∧ d ≤ 687) ∧ (inBand 48 d 550 = true ↔ 286 ≤ d ∧ d ≤ 814) ∧
    (inBand 0 d 1600 = true ↔ d = 1600) ∧ (inBand 10 d 1600 = true ↔ 1440 ≤ d ∧ d ≤ 1760) ∧
    (inBand 25 d 1600 = true ↔ 1200 ≤ d ∧ d ≤ 2000) ∧ (inBand 48 d 1600 = true ↔ 832 ≤ d ∧ d ≤ 2368) ∧
    (inBand 0 d 4400 = true ↔ d = 4400) ∧ (inBand 10 d 4400 = true ↔ 3960 ≤ d ∧ d ≤ 4840) ∧
    (inBand 25 d 4400 = true ↔ 3300 ≤ d ∧ d ≤ 5500) ∧ (inBand 48 d 4400 = true ↔ 2288 ≤ d ∧ d ≤ 6512)

/-- 41 R111: at every legal T the bands of the one-space and the zero-space are disjoint, so a space is ONE exactly in the
first, ZERO exactly in the second, and unclassifiable exactly in neither, whichever is tried first. -/
def Obligations.SpaceClassification : Prop :=
  ∀ T d : Nat, T ≤ 48 →
    ¬(inBand T d 1600 = true ∧ inBand T d 550 = true) ∧
    (classify T d = some true ↔ inBand T d 1600 = true) ∧
    (classify T d = some false ↔ inBand T d 550 = true) ∧
    (classify T d = none ↔ inBand T d 1600 = false ∧ inBand T d 550 = false)

/-- 41 R112: the length gate passes exactly the six accepted capture lengths, with their bit counts, and at any other length
the decode fails with LEN at position 0 whatever the elements hold. -/
def Obligations.LengthGate : Prop :=
  (∀ n N : Nat, gate n = some N ↔
    (n, N) ∈ [(115, 56), (116, 56), (147, 72), (148, 72), (163, 80), (164, 80)]) ∧
  (∀ (T : Nat) (c : List Dur), c.length ∉ [115, 116, 147, 148, 163, 164] ↔ decodePulses T c = .fail .len 0)

/-- 41 R116, R115, R113, R114: a decode succeeds exactly when the gate passes, the header matches and all 32 bits are there,
and its value's bit 31 − i is bit i. -/
def Obligations.DecodeSucceedsExactly : Prop :=
  ∀ (T : Nat) (c : List Dur) (bits : BitVec 7) (value : Word),
    decodePulses T c = .ok bits value ↔
      gate c.length = some bits.toNat ∧
      inBand T (durAt c 1) 4400 = true ∧ inBand T (durAt c 2) 4400 = true ∧
      ∀ i < 32, inBand T (durAt c (3 + 2 * i)) 550 = true ∧
        classify T (durAt c (4 + 2 * i)) = some (value.getLsbD (31 - i))

/-- 60 R157, 41 R113 to R115: the first failing check in the order gate, header mark, header space, then bit mark and bit
space of each bit, is the one reported, with its position, whatever the later elements hold. -/
def Obligations.FirstFailureIsReported : Prop :=
  ∀ (T : Nat) (c : List Dur),
    let mark i := inBand T (durAt c (3 + 2 * i)) 550
    let bit i := classify T (durAt c (4 + 2 * i))
    (gate c.length = none → decodePulses T c = .fail .len 0) ∧
    (gate c.length ≠ none →
      (inBand T (durAt c 1) 4400 = false → decodePulses T c = .fail .hdrMark 1) ∧
      (inBand T (durAt c 1) 4400 = true → inBand T (durAt c 2) 4400 = false → decodePulses T c = .fail .hdrSpace 2) ∧
      (inBand T (durAt c 1) 4400 = true → inBand T (durAt c 2) 4400 = true →
        ∀ i < 32, (∀ j < i, mark j = true ∧ bit j ≠ none) →
          (mark i = false → decodePulses T c = .fail .bitMark (BitVec.ofNat 8 (3 + 2 * i))) ∧
          (mark i = true → bit i = none → decodePulses T c = .fail .bitSpace (BitVec.ofNat 8 (4 + 2 * i)))))

/-- 41 R118: a decode reads elements 1 to 66 of a capture that passes the gate and no other: two captures of one length that
agree there decode alike. -/
def Obligations.DecodeReadsElements1To66 : Prop :=
  ∀ (T : Nat) (p q : List Dur), p.length = q.length → (∀ i, 1 ≤ i → i ≤ 66 → p[i]? = q[i]?) →
    decodePulses T p = decodePulses T q

/-- 41 R121, R120: the round trip. For every frame of 7, 9 or 10 bytes, every leading gap and every legal tolerance, the
capture of the frame's train decodes to its bit length and its first four bytes, most significant first. -/
def Obligations.RoundTrip : Prop :=
  ∀ (b0 b1 b2 b3 : Byte) (more : List Byte) (g : Dur) (T : Nat), LegalFrame (b0 :: b1 :: b2 :: b3 :: more) → T ≤ 48 →
    decodePulses T (capture (train (b0 :: b1 :: b2 :: b3 :: more)) g) =
      .ok (BitVec.ofNat 7 (8 * (4 + more.length)))
        (b0.setWidth 32 <<< 24 ||| b1.setWidth 32 <<< 16 ||| b2.setWidth 32 <<< 8 ||| b3.setWidth 32)

/-- 41 R117, R121, 20 R58: the round trip through the registers: with the capture of a frame's train in CAP0 upward and its
length in CAP_COUNT, DECODE succeeds with DEC_STATUS 0x3, RES_BITS the frame's bit length and RES_VALUE its first four
bytes, whatever every other register and the entries past the capture hold, and changes nothing else. -/
def Obligations.RoundTripThroughRegisters : Prop :=
  ∀ (s : State) (ign : BitVec 24) (b0 b1 b2 b3 : Byte) (more : List Byte) (g : Dur),
    LegalFrame (b0 :: b1 :: b2 :: b3 :: more) →
    s.capCount.toNat = 16 * (4 + more.length) + 4 →
    (∀ i, i < 16 * (4 + more.length) + 4 →
      s.cap[i]? = (capture (train (b0 :: b1 :: b2 :: b3 :: more)) g)[i]?) →
    exec (.decodeCmd ign) s =
      .next { s with
        decDone := true, decOk := true, decErr := .none, failPos := 0
        resBits := BitVec.ofNat 7 (8 * (4 + more.length)), resValue := b0 ++ b1 ++ b2 ++ b3 }

/-- 41 R117: the DECODE command writes DEC_STATUS, RES_BITS and RES_VALUE from the decode of CAP0 to CAP(COUNT−1) and
changes nothing else; after a failure RES_BITS and RES_VALUE are some draw. A write to CMD with bits 7:0 = 0x02 is a
DECODE. -/
def Obligations.DecodeCommand : Prop :=
  ∀ (ign : BitVec 24) (s : State) (p : List Dur), p.length = s.capCount.toNat →
    (∀ i, i < p.length → p[i]? = s.cap[i]?) →
    (∀ bits value, decodePulses s.tolPct.val p = .ok bits value →
      exec (.decodeCmd ign) s =
        .next { s with
          decDone := true, decOk := true, decErr := .none, failPos := 0, resBits := bits, resValue := value }) ∧
    (∀ code pos, decodePulses s.tolPct.val p = .fail code pos →
      ∃ anyBits anyValue, exec (.decodeCmd ign) s =
        .next { s with
          decDone := true, decOk := false, decErr := code, failPos := pos, resBits := anyBits, resValue := anyValue
          draws := s.draws + 1 }) ∧
    (∀ v : Word, v.toNat % 256 = 2 → exec (.wr 0x000 v) s = exec (.decodeCmd ign) s)

/-- 41 R123, 60 R160: DECODE is a function of CAP_COUNT, CAP0 to CAP255 and TOL_PCT alone: in two states that agree on
these, whatever else differs, it writes the same DEC_STATUS and, when it succeeds, the same results; and it touches nothing
of the encoder or the emitter. -/
def Obligations.DecodeIsAFunctionOfTheCapture : Prop :=
  ∀ (s u : State) (i j : BitVec 24), s.capCount = u.capCount → s.cap = u.cap → s.tolPct = u.tolPct →
    ∃ t v, exec (.decodeCmd i) s = .next t ∧ exec (.decodeCmd j) u = .next v ∧
      decStatusWord t = decStatusWord v ∧
      (t.decOk = true → t.resBits = v.resBits ∧ t.resValue = v.resValue) ∧
      t = { s with
        decDone := t.decDone, decOk := t.decOk, decErr := t.decErr, failPos := t.failPos, resBits := t.resBits
        resValue := t.resValue, draws := t.draws }

/-! ### The emitter -/

/-- 30 R76: the emitter's contract. CARRIER sets the carrier and leaves the line; MARK drives the line modulated; SPACE holds
it off; each leaves its duration before the emitter is ready again, CARRIER and `SPACE(0)` none; and nothing of the block
changes. -/
def Obligations.EmitterContract : Prop :=
  ∀ (s : State) (d : BitVec 16),
    exec (.carrier d) s =
      .next { s with emCarrier := d, emLeft := 0, sent := s.sent ++ [0b00#2 ++ d] } ∧
    exec (.mark d) s =
      .next { s with emLine := .modulated, emLeft := d.toNat, sent := s.sent ++ [0b01#2 ++ d] } ∧
    exec (.space d) s =
      .next { s with emLine := .off, emLeft := d.toNat, sent := s.sent ++ [0b10#2 ++ d] }

/-- 30 R76: time at the emitter, in the model's turns of time (log 29). Until a symbol's duration has passed the line is held
and the emitter is not ready; when it has passed the emitter is ready. No time changes anything of the block. That with no
duration left the line is held whatever time passes is R76 for `SPACE(0)` and CARRIER; after a timed MARK or SPACE has ended
R76 is silent, and there it is the model's choice (log 7: one free value at the end, held from then on). -/
def Obligations.EmitterTime : Prop :=
  ∀ (s : State) (us : Nat), nextTurn s = .elapse us →
    ∃ t, step s = .next t ∧
      (us < s.emLeft → t.emLeft = s.emLeft - us ∧ symReady t = false ∧ t.emLine = s.emLine) ∧
      (s.emLeft ≤ us → symReady t = true) ∧
      (s.emLeft = 0 → t.emLine = s.emLine) ∧
      t = { s with schedule := s.schedule.tail, emLeft := t.emLeft, emLine := t.emLine, draws := t.draws }

/-! ### The host's loop -/

/-- 30 R80, 42 R145: a step at `POLL off, mask, value` performs one RD of `off`; the host moves on when the masked result
equals the value and otherwise stays at the line; nothing else changes. -/
def Obligations.PollRepeatsItsRead : Prop :=
  ∀ (s : State) (off : Off) (mask value : Word) (rest : List HostLine), nextTurn s = .host →
    s.program = .poll off mask value :: rest → off.toNat % 4 = 0 →
    ∃ t u, step s = .next t ∧ exec (.rd off) s = .next u ∧ t.busData = u.busData ∧
      (u.busData &&& mask = value → t.program = rest) ∧
      (u.busData &&& mask ≠ value → t.program = s.program) ∧
      t = { s with schedule := s.schedule.tail, busData := t.busData, program := t.program }

/-! ### Whole-machine rules -/

/-- 10 R21: no command writes an operand register: a step that changes FRAME_LEN, a frame byte, CAP_COUNT or a capture entry
is a reset or the host's WR to an offset other than CMD's. -/
def Obligations.OnlyWritesChangeOperands : Prop :=
  ∀ s t : State, step s = .next t → nextTurn s ≠ .reset →
    (t.frameLen ≠ s.frameLen ∨ t.frame ≠ s.frame ∨ t.capCount ≠ s.capCount ∨ t.cap ≠ s.cap) →
    ∃ off v, HostRuns s (.wr off v) ∧ off ≠ regOffset .cmd

/-- 10 R39: the only writers of the status fields: a step that changes ENC_STATUS is an ENCODE command, an encoder's turn
that completes a train, or a reset; one that changes DEC_STATUS, RES_BITS or RES_VALUE is a DECODE command or a reset. -/
def Obligations.StatusWriters : Prop :=
  ∀ s t : State, step s = .next t → nextTurn s ≠ .reset →
    (encStatusWord t ≠ encStatusWord s →
      RunsCommand s 0x01#8 ∨ (nextTurn s = .encoder ∧ s.encIdx + 1 = s.encSeq.length ∧ t.encBusy = false)) ∧
    (decStatusWord t ≠ decStatusWord s ∨ t.resBits ≠ s.resBits ∨ t.resValue ≠ s.resValue → RunsCommand s 0x02#8)

/-- 10 R26: DEC_STATUS.DONE is set by the completion of any DECODE and stays 1 until reset. -/
def Obligations.DecodeDoneStaysUntilReset : Prop :=
  (∀ ign s, ∃ t, exec (.decodeCmd ign) s = .next t ∧ t.decDone = true) ∧
  (∀ s t : State, s.decDone = true → step s = .next t → nextTurn s ≠ .reset → t.decDone = true) ∧
  (∀ s t : State, s.decDone = false → step s = .next t → t.decDone = true → RunsCommand s 0x02#8)

/-- 00 R5, 10 R41, 70 R170: TOL_PCT is no register: no step changes it, a reset included. -/
def Obligations.ToleranceIsFixed : Prop :=
  ∀ s t : State, step s = .next t → t.tolPct = s.tolPct

/-! ### Reset -/

/-- 10 R42, 70 R170, R171: a reset, whatever the state before it and a train in flight or not: the status, operand and result
registers are 0, no symbol is offered, the line is off, and nothing more of the train is sent; the parameter is as before. -/
def Obligations.ResetValues : Prop :=
  ∀ s : State, nextTurn s = .reset →
    ∃ t, step s = .next t ∧
      encStatusWord t = 0#32 ∧ decStatusWord t = 0#32 ∧ t.frameLen = 0#4 ∧ (∀ i : Fin 10, t.frame[i] = 0#8) ∧
      t.capCount = 0#8 ∧ t.resBits = 0#7 ∧ t.resValue = 0#32 ∧
      symValid t = false ∧ t.emLine = .off ∧ t.sent = s.sent ∧ t.tolPct = s.tolPct

/-- 10 R42: the state right after reset has the same values, and TOL_PCT at its default (00 R5). -/
def Obligations.ResetState : Prop :=
  encStatusWord State.reset = 0#32 ∧ decStatusWord State.reset = 0#32 ∧ State.reset.frameLen = 0#4 ∧
    (∀ i : Fin 10, State.reset.frame[i] = 0#8) ∧ State.reset.capCount = 0#8 ∧ State.reset.resBits = 0#7 ∧
    State.reset.resValue = 0#32 ∧ symValid State.reset = false ∧ State.reset.emLine = .off ∧
    State.reset.tolPct.val = 25

/-! ### The invariant -/

/-- The invariant holds right after reset. -/
def Obligations.InvariantAtReset : Prop := State.reset.Inv

/-- Every step keeps the invariant: the train in flight is a legal frame's, in order and each symbol once (20 R65); the
carrier is 38 kHz during it (00 R4); the idle line is off (60 R164); the decoder's status fields fit each other (10 R26 to
R29). -/
def Obligations.StepKeepsInvariant : Prop := ∀ s t : State, s.Inv → step s = .next t → t.Inv

/-- 93 I5, 10 R36: no state with the invariant faults: no reserved symbol is ever offered, and there is always a symbol to
offer while BUSY = 1. -/
def Obligations.InvariantStatesAreSafe : Prop := ∀ s : State, s.Inv → s.Safe

/-- 00 R4, 60 R160, R164: every run from reset, of every host program under every order of the agents: it never faults, and
whenever the line is modulated a train is in flight and the carrier is 38 kHz. The program and the order are loaded from
outside (log 3, log 1, log 31), and the tolerance is the default 25 of the state after reset (log 8). -/
def Obligations.RunsFromResetAreSafe : Prop :=
  ∀ (program : List HostLine) (schedule : List Turn) (k : Nat),
    (∀ r, core.run k (State.loaded program schedule) ≠ .fault r) ∧
    (∀ t : State, core.run k (State.loaded program schedule) = .next t → t.emLine = .modulated →
      t.encBusy = true ∧ t.emCarrier = 38)

/-! ### The host-side frames -/

/-- 00 R8, R13, 95 S1 (host-side): a power command in its legal domain builds a 9-byte frame that begins F2 0D 03 FC 01 and
whose last byte is the XOR of the eight before it, wherever the purifier flag stands. That bit 7 of param1,
which the rule leaves unused, is 0 is the model's choice (log 32). -/
def Obligations.PowerFrameChecksum : Prop :=
  ∀ (purifierBit tempC mode fan : Nat) (pure : Bool),
    17 ≤ tempC → tempC ≤ 30 → mode ∈ [0, 1, 2, 3, 7] → fan ∈ [0, 2, 3, 4, 5, 6] →
    ∃ f, buildFrame purifierBit (.power tempC mode fan pure) = .ok f ∧ f.length = 9 ∧ LegalFrame f ∧
      f.take 5 = [0xF2, 0x0D, 0x03, 0xFC, 0x01] ∧
      f[8]? = some ((f.take 8).foldr (· ^^^ ·) 0#8) ∧
      f[5]? = some (BitVec.ofNat 8 (tempC - 17)) ∧ f[6]? = some (BitVec.ofNat 8 (fan * 16 + mode))

/-! ### Runs without fairness -/

/-- 93 I13, 70 R181: without fairness BUSY stays 1 for ever, and a WAITENC never ends. When the host alone moves from now on,
its WAITENC repeats for every number of steps with the train where it was; when the encoder alone moves and the emitter is
not ready, every number of steps leaves the state as it is. Which turns come once the schedule is used up is the model's
field `thereafter` (log 31). -/
def Obligations.UnfairRunsHang : Prop :=
  ∀ s : State, s.encBusy = true → s.schedule = [] →
    (∀ rest, s.thereafter = some .host → s.program = .poll 0x004 0x1 0x0 :: rest →
      ∀ k, ∃ t : State, core.run k s = .next t ∧ t.encBusy = true ∧ t = { s with busData := t.busData }) ∧
    (s.thereafter = some .encoder → s.emLeft ≠ 0 → ∀ k, core.run k s = .next s)
end

