-- ==== Sys2Proof/Laws/Decode.lean ====
section
/-! SUPPORT. The fields of the words the encoder lays out, and the words put together again from their fields. -/

namespace Sys2Proof

/-! ### Words as numbers -/

theorem append_toNat {n m : Nat} (x : BitVec n) (y : BitVec m) :
    (x ++ y).toNat = x.toNat * 2 ^ m + y.toNat := by
  rw [BitVec.toNat_append, ← Nat.shiftLeft_add_eq_or_of_lt y.isLt, Nat.shiftLeft_eq]

theorem field_toNat {n : Nat} (w : BitVec n) (start len : Nat) :
    (w.extractLsb' start len).toNat = w.toNat / 2 ^ start % 2 ^ len := by
  simp [BitVec.extractLsb'_toNat, Nat.shiftRight_eq_div_pow]

theorem cmdWord_toNat (opcode : BitVec 8) (ign : BitVec 24) :
    (cmdWord opcode ign).toNat = ign.toNat * 2 ^ 8 + opcode.toNat := append_toNat ign opcode

theorem symWord_toNat (kind : BitVec 2) (arg : BitVec 16) :
    (symWord kind arg).toNat = kind.toNat * 2 ^ 16 + arg.toNat := append_toNat kind arg

theorem howWord_toNat (op : BitVec 2) (off : Off) (data : Word) :
    (howWord op off data).toNat = op.toNat * 2 ^ 62 + off.toNat * 2 ^ 32 + data.toNat := by
  have h : (howWord op off data).toNat = ((op ++ 0#19 ++ off) ++ data).toNat := rfl
  rw [h, append_toNat, append_toNat, append_toNat, BitVec.toNat_ofNat]
  omega

/-! ### The fields of an encoded word -/

@[simp] theorem cmdWord_opcode (opcode : BitVec 8) (ign : BitVec 24) :
    (cmdWord opcode ign).extractLsb' 0 8 = opcode := by
  apply BitVec.eq_of_toNat_eq; rw [field_toNat, cmdWord_toNat]; omega

@[simp] theorem cmdWord_ign (opcode : BitVec 8) (ign : BitVec 24) :
    (cmdWord opcode ign).extractLsb' 8 24 = ign := by
  apply BitVec.eq_of_toNat_eq; rw [field_toNat, cmdWord_toNat]; omega

@[simp] theorem howWord_op (op : BitVec 2) (off : Off) (data : Word) :
    (howWord op off data).extractLsb' 62 2 = op := by
  apply BitVec.eq_of_toNat_eq; rw [field_toNat, howWord_toNat]; omega

@[simp] theorem howWord_gap (op : BitVec 2) (off : Off) (data : Word) :
    (howWord op off data).extractLsb' 43 19 = 0#19 := by
  apply BitVec.eq_of_toNat_eq; rw [field_toNat, howWord_toNat, BitVec.toNat_ofNat]; omega

@[simp] theorem howWord_off (op : BitVec 2) (off : Off) (data : Word) :
    (howWord op off data).extractLsb' 32 11 = off := by
  apply BitVec.eq_of_toNat_eq; rw [field_toNat, howWord_toNat]; omega

@[simp] theorem howWord_data (op : BitVec 2) (off : Off) (data : Word) :
    (howWord op off data).extractLsb' 0 32 = data := by
  apply BitVec.eq_of_toNat_eq; rw [field_toNat, howWord_toNat]; omega

@[simp] theorem symWord_kind (kind : BitVec 2) (arg : BitVec 16) : (symWord kind arg).extractLsb' 16 2 = kind := by
  apply BitVec.eq_of_toNat_eq; rw [field_toNat, symWord_toNat]; omega

@[simp] theorem symWord_arg (kind : BitVec 2) (arg : BitVec 16) : (symWord kind arg).extractLsb' 0 16 = arg := by
  apply BitVec.eq_of_toNat_eq; rw [field_toNat, symWord_toNat]; omega

/-! ### A word is its fields -/

theorem cmdWord_of_fields (w : Word) : cmdWord (w.extractLsb' 0 8) (w.extractLsb' 8 24) = w := by
  apply BitVec.eq_of_toNat_eq; rw [cmdWord_toNat, field_toNat, field_toNat]; omega

theorem symWord_of_fields (w : SymWord) : symWord (w.extractLsb' 16 2) (w.extractLsb' 0 16) = w := by
  apply BitVec.eq_of_toNat_eq; rw [symWord_toNat, field_toNat, field_toNat]; omega

theorem howWord_of_fields (w : HowWord) (h : w.extractLsb' 43 19 = 0#19) :
    howWord (w.extractLsb' 62 2) (w.extractLsb' 32 11) (w.extractLsb' 0 32) = w := by
  have hz := congrArg BitVec.toNat h
  rw [field_toNat, BitVec.toNat_ofNat] at hz
  apply BitVec.eq_of_toNat_eq
  rw [howWord_toNat, field_toNat, field_toNat, field_toNat]
  omega

/-- 20 R52: an offset is aligned when it is a multiple of 4. -/
theorem offAligned_iff (off : Off) : offAligned off = true ↔ off.toNat % 4 = 0 := by
  rw [offAligned, beq_iff_eq, ← BitVec.toNat_inj, field_toNat]
  simp

theorem reservedOpcode_iff (opcode : BitVec 8) : reservedOpcode opcode = true ↔ 3 ≤ opcode.toNat := by
  simp [reservedOpcode, BitVec.le_def]

/-! ### The decoder on symbols -/

/-- A symbol's word decodes to the instruction of the same name (30 R74). -/
theorem decode_symbolWord (y : Symbol) :
    decode (.sym (symbolWord y)) =
      .ok (symbolInstr y) := by
  cases y <;> simp [decode, decodeSymWord, symbolWord, symbolInstr]

/-- The word of a symbol that decodes is that symbol's word. -/
theorem decodeSymWord_ok {w : SymWord} {i : Instr} (h : decodeSymWord w = .ok i) :
    ∃ y, w = symbolWord y ∧
      i = symbolInstr y := by
  have hw := symWord_of_fields w
  simp only [decodeSymWord] at h
  split at h
  · next hk => rw [hk] at hw; exact ⟨.carrier _, hw.symm, by simpa [symbolInstr] using h.symm⟩
  · split at h
    · next hk => rw [hk] at hw; exact ⟨.mark _, hw.symm, by simpa [symbolInstr] using h.symm⟩
    · split at h
      · next hk => rw [hk] at hw; exact ⟨.space _, hw.symm, by simpa [symbolInstr] using h.symm⟩
      · cases h

/-- A host-operation word that decodes is the word of an aligned RD or WR (30 R79). -/
theorem decodeHowWord_ok {w : HowWord} {i : Instr} (h : decodeHowWord w = .ok i) :
    ∃ off data, offAligned off = true ∧
      ((i = .rd off ∧ w = howWord 0b00#2 off 0#32) ∨ (i = .wr off data ∧ w = howWord 0b01#2 off data)) := by
  simp only [decodeHowWord] at h
  split at h
  · cases h
  · next hop =>
    split at h
    · cases h
    · next hgap =>
      split at h
      · cases h
      · next hoff =>
        have hw := howWord_of_fields w (by simpa using hgap)
        refine ⟨w.extractLsb' 32 11, w.extractLsb' 0 32, by simpa using hoff, ?_⟩
        split at h
        · next h1 => rw [h1] at hw; exact .inr ⟨by simpa using h.symm, hw.symm⟩
        · next h1 =>
          split at h
          · cases h
          · next hd =>
            have h0 : w.extractLsb' 62 2 = 0b00#2 := by
              by_contra hc; exact hop ⟨hc, h1⟩
            have hd' : w.extractLsb' 0 32 = 0#32 := by simpa using hd
            rw [h0, hd'] at hw
            exact .inl ⟨by simpa using h.symm, hw.symm⟩

end Sys2Proof
end

