-- ==== Sys2Proof/Laws/State.lean ====
section
/-! SUPPORT. One lemma per field per update of the state, each true by unfolding the update, so that no later proof unfolds
a record update. The first part is of the plain updates; the second is of the updates by cases, for the fields no case
touches. -/

namespace Sys2Proof.Machine

variable (s : State)


/-! ### refuseEncode -/

@[simp] theorem refuseEncode_frameLen (e : EncErr) : (refuseEncode e s).frameLen = s.frameLen := rfl
@[simp] theorem refuseEncode_frame (e : EncErr) : (refuseEncode e s).frame = s.frame := rfl
@[simp] theorem refuseEncode_capCount (e : EncErr) : (refuseEncode e s).capCount = s.capCount := rfl
@[simp] theorem refuseEncode_cap (e : EncErr) : (refuseEncode e s).cap = s.cap := rfl
@[simp] theorem refuseEncode_encBusy (e : EncErr) : (refuseEncode e s).encBusy = s.encBusy := rfl
@[simp] theorem refuseEncode_encDone (e : EncErr) : (refuseEncode e s).encDone = s.encDone := rfl
@[simp] theorem refuseEncode_encErr (e : EncErr) : (refuseEncode e s).encErr = e := rfl
@[simp] theorem refuseEncode_decDone (e : EncErr) : (refuseEncode e s).decDone = s.decDone := rfl
@[simp] theorem refuseEncode_decOk (e : EncErr) : (refuseEncode e s).decOk = s.decOk := rfl
@[simp] theorem refuseEncode_decErr (e : EncErr) : (refuseEncode e s).decErr = s.decErr := rfl
@[simp] theorem refuseEncode_failPos (e : EncErr) : (refuseEncode e s).failPos = s.failPos := rfl
@[simp] theorem refuseEncode_resBits (e : EncErr) : (refuseEncode e s).resBits = s.resBits := rfl
@[simp] theorem refuseEncode_resValue (e : EncErr) : (refuseEncode e s).resValue = s.resValue := rfl
@[simp] theorem refuseEncode_encSeq (e : EncErr) : (refuseEncode e s).encSeq = s.encSeq := rfl
@[simp] theorem refuseEncode_encIdx (e : EncErr) : (refuseEncode e s).encIdx = s.encIdx := rfl
@[simp] theorem refuseEncode_emLine (e : EncErr) : (refuseEncode e s).emLine = s.emLine := rfl
@[simp] theorem refuseEncode_emCarrier (e : EncErr) : (refuseEncode e s).emCarrier = s.emCarrier := rfl
@[simp] theorem refuseEncode_emLeft (e : EncErr) : (refuseEncode e s).emLeft = s.emLeft := rfl
@[simp] theorem refuseEncode_tolPct (e : EncErr) : (refuseEncode e s).tolPct = s.tolPct := rfl
@[simp] theorem refuseEncode_busData (e : EncErr) : (refuseEncode e s).busData = s.busData := rfl
@[simp] theorem refuseEncode_sent (e : EncErr) : (refuseEncode e s).sent = s.sent := rfl
@[simp] theorem refuseEncode_program (e : EncErr) : (refuseEncode e s).program = s.program := rfl
@[simp] theorem refuseEncode_schedule (e : EncErr) : (refuseEncode e s).schedule = s.schedule := rfl
@[simp] theorem refuseEncode_thereafter (e : EncErr) : (refuseEncode e s).thereafter = s.thereafter := rfl
@[simp] theorem refuseEncode_draws (e : EncErr) : (refuseEncode e s).draws = s.draws := rfl

/-! ### acceptEncode -/

@[simp] theorem acceptEncode_frameLen (p : List SymWord) : (acceptEncode p s).frameLen = s.frameLen := rfl
@[simp] theorem acceptEncode_frame (p : List SymWord) : (acceptEncode p s).frame = s.frame := rfl
@[simp] theorem acceptEncode_capCount (p : List SymWord) : (acceptEncode p s).capCount = s.capCount := rfl
@[simp] theorem acceptEncode_cap (p : List SymWord) : (acceptEncode p s).cap = s.cap := rfl
@[simp] theorem acceptEncode_encBusy (p : List SymWord) : (acceptEncode p s).encBusy = true := rfl
@[simp] theorem acceptEncode_encDone (p : List SymWord) : (acceptEncode p s).encDone = false := rfl
@[simp] theorem acceptEncode_encErr (p : List SymWord) : (acceptEncode p s).encErr = .none := rfl
@[simp] theorem acceptEncode_decDone (p : List SymWord) : (acceptEncode p s).decDone = s.decDone := rfl
@[simp] theorem acceptEncode_decOk (p : List SymWord) : (acceptEncode p s).decOk = s.decOk := rfl
@[simp] theorem acceptEncode_decErr (p : List SymWord) : (acceptEncode p s).decErr = s.decErr := rfl
@[simp] theorem acceptEncode_failPos (p : List SymWord) : (acceptEncode p s).failPos = s.failPos := rfl
@[simp] theorem acceptEncode_resBits (p : List SymWord) : (acceptEncode p s).resBits = s.resBits := rfl
@[simp] theorem acceptEncode_resValue (p : List SymWord) : (acceptEncode p s).resValue = s.resValue := rfl
@[simp] theorem acceptEncode_encSeq (p : List SymWord) : (acceptEncode p s).encSeq = p := rfl
@[simp] theorem acceptEncode_encIdx (p : List SymWord) : (acceptEncode p s).encIdx = 0 := rfl
@[simp] theorem acceptEncode_emLine (p : List SymWord) : (acceptEncode p s).emLine = s.emLine := rfl
@[simp] theorem acceptEncode_emCarrier (p : List SymWord) : (acceptEncode p s).emCarrier = s.emCarrier := rfl
@[simp] theorem acceptEncode_emLeft (p : List SymWord) : (acceptEncode p s).emLeft = s.emLeft := rfl
@[simp] theorem acceptEncode_tolPct (p : List SymWord) : (acceptEncode p s).tolPct = s.tolPct := rfl
@[simp] theorem acceptEncode_busData (p : List SymWord) : (acceptEncode p s).busData = s.busData := rfl
@[simp] theorem acceptEncode_sent (p : List SymWord) : (acceptEncode p s).sent = s.sent := rfl
@[simp] theorem acceptEncode_program (p : List SymWord) : (acceptEncode p s).program = s.program := rfl
@[simp] theorem acceptEncode_schedule (p : List SymWord) : (acceptEncode p s).schedule = s.schedule := rfl
@[simp] theorem acceptEncode_thereafter (p : List SymWord) : (acceptEncode p s).thereafter = s.thereafter := rfl
@[simp] theorem acceptEncode_draws (p : List SymWord) : (acceptEncode p s).draws = s.draws := rfl

/-! ### recordDecoded -/

@[simp] theorem recordDecoded_frameLen (b : BitVec 7) (v : Word) : (recordDecoded b v s).frameLen = s.frameLen := rfl
@[simp] theorem recordDecoded_frame (b : BitVec 7) (v : Word) : (recordDecoded b v s).frame = s.frame := rfl
@[simp] theorem recordDecoded_capCount (b : BitVec 7) (v : Word) : (recordDecoded b v s).capCount = s.capCount := rfl
@[simp] theorem recordDecoded_cap (b : BitVec 7) (v : Word) : (recordDecoded b v s).cap = s.cap := rfl
@[simp] theorem recordDecoded_encBusy (b : BitVec 7) (v : Word) : (recordDecoded b v s).encBusy = s.encBusy := rfl
@[simp] theorem recordDecoded_encDone (b : BitVec 7) (v : Word) : (recordDecoded b v s).encDone = s.encDone := rfl
@[simp] theorem recordDecoded_encErr (b : BitVec 7) (v : Word) : (recordDecoded b v s).encErr = s.encErr := rfl
@[simp] theorem recordDecoded_decDone (b : BitVec 7) (v : Word) : (recordDecoded b v s).decDone = true := rfl
@[simp] theorem recordDecoded_decOk (b : BitVec 7) (v : Word) : (recordDecoded b v s).decOk = true := rfl
@[simp] theorem recordDecoded_decErr (b : BitVec 7) (v : Word) : (recordDecoded b v s).decErr = .none := rfl
@[simp] theorem recordDecoded_failPos (b : BitVec 7) (v : Word) : (recordDecoded b v s).failPos = 0#8 := rfl
@[simp] theorem recordDecoded_resBits (b : BitVec 7) (v : Word) : (recordDecoded b v s).resBits = b := rfl
@[simp] theorem recordDecoded_resValue (b : BitVec 7) (v : Word) : (recordDecoded b v s).resValue = v := rfl
@[simp] theorem recordDecoded_encSeq (b : BitVec 7) (v : Word) : (recordDecoded b v s).encSeq = s.encSeq := rfl
@[simp] theorem recordDecoded_encIdx (b : BitVec 7) (v : Word) : (recordDecoded b v s).encIdx = s.encIdx := rfl
@[simp] theorem recordDecoded_emLine (b : BitVec 7) (v : Word) : (recordDecoded b v s).emLine = s.emLine := rfl
@[simp] theorem recordDecoded_emCarrier (b : BitVec 7) (v : Word) : (recordDecoded b v s).emCarrier = s.emCarrier := rfl
@[simp] theorem recordDecoded_emLeft (b : BitVec 7) (v : Word) : (recordDecoded b v s).emLeft = s.emLeft := rfl
@[simp] theorem recordDecoded_tolPct (b : BitVec 7) (v : Word) : (recordDecoded b v s).tolPct = s.tolPct := rfl
@[simp] theorem recordDecoded_busData (b : BitVec 7) (v : Word) : (recordDecoded b v s).busData = s.busData := rfl
@[simp] theorem recordDecoded_sent (b : BitVec 7) (v : Word) : (recordDecoded b v s).sent = s.sent := rfl
@[simp] theorem recordDecoded_program (b : BitVec 7) (v : Word) : (recordDecoded b v s).program = s.program := rfl
@[simp] theorem recordDecoded_schedule (b : BitVec 7) (v : Word) : (recordDecoded b v s).schedule = s.schedule := rfl
@[simp] theorem recordDecoded_thereafter (b : BitVec 7) (v : Word) : (recordDecoded b v s).thereafter = s.thereafter := rfl
@[simp] theorem recordDecoded_draws (b : BitVec 7) (v : Word) : (recordDecoded b v s).draws = s.draws := rfl

/-! ### recordMismatch -/

@[simp] theorem recordMismatch_frameLen (c : DecErr) (p : BitVec 8) : (recordMismatch c p s).frameLen = s.frameLen := rfl
@[simp] theorem recordMismatch_frame (c : DecErr) (p : BitVec 8) : (recordMismatch c p s).frame = s.frame := rfl
@[simp] theorem recordMismatch_capCount (c : DecErr) (p : BitVec 8) : (recordMismatch c p s).capCount = s.capCount := rfl
@[simp] theorem recordMismatch_cap (c : DecErr) (p : BitVec 8) : (recordMismatch c p s).cap = s.cap := rfl
@[simp] theorem recordMismatch_encBusy (c : DecErr) (p : BitVec 8) : (recordMismatch c p s).encBusy = s.encBusy := rfl
@[simp] theorem recordMismatch_encDone (c : DecErr) (p : BitVec 8) : (recordMismatch c p s).encDone = s.encDone := rfl
@[simp] theorem recordMismatch_encErr (c : DecErr) (p : BitVec 8) : (recordMismatch c p s).encErr = s.encErr := rfl
@[simp] theorem recordMismatch_decDone (c : DecErr) (p : BitVec 8) : (recordMismatch c p s).decDone = true := rfl
@[simp] theorem recordMismatch_decOk (c : DecErr) (p : BitVec 8) : (recordMismatch c p s).decOk = false := rfl
@[simp] theorem recordMismatch_decErr (c : DecErr) (p : BitVec 8) : (recordMismatch c p s).decErr = c := rfl
@[simp] theorem recordMismatch_failPos (c : DecErr) (p : BitVec 8) : (recordMismatch c p s).failPos = p := rfl
@[simp] theorem recordMismatch_resBits (c : DecErr) (p : BitVec 8) : (recordMismatch c p s).resBits = Config.freeBits s.draws := rfl
@[simp] theorem recordMismatch_resValue (c : DecErr) (p : BitVec 8) : (recordMismatch c p s).resValue = Config.freeValue s.draws := rfl
@[simp] theorem recordMismatch_encSeq (c : DecErr) (p : BitVec 8) : (recordMismatch c p s).encSeq = s.encSeq := rfl
@[simp] theorem recordMismatch_encIdx (c : DecErr) (p : BitVec 8) : (recordMismatch c p s).encIdx = s.encIdx := rfl
@[simp] theorem recordMismatch_emLine (c : DecErr) (p : BitVec 8) : (recordMismatch c p s).emLine = s.emLine := rfl
@[simp] theorem recordMismatch_emCarrier (c : DecErr) (p : BitVec 8) : (recordMismatch c p s).emCarrier = s.emCarrier := rfl
@[simp] theorem recordMismatch_emLeft (c : DecErr) (p : BitVec 8) : (recordMismatch c p s).emLeft = s.emLeft := rfl
@[simp] theorem recordMismatch_tolPct (c : DecErr) (p : BitVec 8) : (recordMismatch c p s).tolPct = s.tolPct := rfl
@[simp] theorem recordMismatch_busData (c : DecErr) (p : BitVec 8) : (recordMismatch c p s).busData = s.busData := rfl
@[simp] theorem recordMismatch_sent (c : DecErr) (p : BitVec 8) : (recordMismatch c p s).sent = s.sent := rfl
@[simp] theorem recordMismatch_program (c : DecErr) (p : BitVec 8) : (recordMismatch c p s).program = s.program := rfl
@[simp] theorem recordMismatch_schedule (c : DecErr) (p : BitVec 8) : (recordMismatch c p s).schedule = s.schedule := rfl
@[simp] theorem recordMismatch_thereafter (c : DecErr) (p : BitVec 8) : (recordMismatch c p s).thereafter = s.thereafter := rfl
@[simp] theorem recordMismatch_draws (c : DecErr) (p : BitVec 8) : (recordMismatch c p s).draws = s.draws + 1 := rfl

/-! ### popSchedule -/

@[simp] theorem popSchedule_frameLen : (popSchedule s).frameLen = s.frameLen := rfl
@[simp] theorem popSchedule_frame : (popSchedule s).frame = s.frame := rfl
@[simp] theorem popSchedule_capCount : (popSchedule s).capCount = s.capCount := rfl
@[simp] theorem popSchedule_cap : (popSchedule s).cap = s.cap := rfl
@[simp] theorem popSchedule_encBusy : (popSchedule s).encBusy = s.encBusy := rfl
@[simp] theorem popSchedule_encDone : (popSchedule s).encDone = s.encDone := rfl
@[simp] theorem popSchedule_encErr : (popSchedule s).encErr = s.encErr := rfl
@[simp] theorem popSchedule_decDone : (popSchedule s).decDone = s.decDone := rfl
@[simp] theorem popSchedule_decOk : (popSchedule s).decOk = s.decOk := rfl
@[simp] theorem popSchedule_decErr : (popSchedule s).decErr = s.decErr := rfl
@[simp] theorem popSchedule_failPos : (popSchedule s).failPos = s.failPos := rfl
@[simp] theorem popSchedule_resBits : (popSchedule s).resBits = s.resBits := rfl
@[simp] theorem popSchedule_resValue : (popSchedule s).resValue = s.resValue := rfl
@[simp] theorem popSchedule_encSeq : (popSchedule s).encSeq = s.encSeq := rfl
@[simp] theorem popSchedule_encIdx : (popSchedule s).encIdx = s.encIdx := rfl
@[simp] theorem popSchedule_emLine : (popSchedule s).emLine = s.emLine := rfl
@[simp] theorem popSchedule_emCarrier : (popSchedule s).emCarrier = s.emCarrier := rfl
@[simp] theorem popSchedule_emLeft : (popSchedule s).emLeft = s.emLeft := rfl
@[simp] theorem popSchedule_tolPct : (popSchedule s).tolPct = s.tolPct := rfl
@[simp] theorem popSchedule_busData : (popSchedule s).busData = s.busData := rfl
@[simp] theorem popSchedule_sent : (popSchedule s).sent = s.sent := rfl
@[simp] theorem popSchedule_program : (popSchedule s).program = s.program := rfl
@[simp] theorem popSchedule_schedule : (popSchedule s).schedule = s.schedule.tail := rfl
@[simp] theorem popSchedule_thereafter : (popSchedule s).thereafter = s.thereafter := rfl
@[simp] theorem popSchedule_draws : (popSchedule s).draws = s.draws := rfl

/-! ### resetBlock -/

@[simp] theorem resetBlock_frameLen : (resetBlock s).frameLen = 0#4 := rfl
@[simp] theorem resetBlock_frame : (resetBlock s).frame = Vector.replicate 10 0#8 := rfl
@[simp] theorem resetBlock_capCount : (resetBlock s).capCount = 0#8 := rfl
@[simp] theorem resetBlock_cap : (resetBlock s).cap = capDraws s.draws := rfl
@[simp] theorem resetBlock_encBusy : (resetBlock s).encBusy = false := rfl
@[simp] theorem resetBlock_encDone : (resetBlock s).encDone = false := rfl
@[simp] theorem resetBlock_encErr : (resetBlock s).encErr = .none := rfl
@[simp] theorem resetBlock_decDone : (resetBlock s).decDone = false := rfl
@[simp] theorem resetBlock_decOk : (resetBlock s).decOk = false := rfl
@[simp] theorem resetBlock_decErr : (resetBlock s).decErr = .none := rfl
@[simp] theorem resetBlock_failPos : (resetBlock s).failPos = 0#8 := rfl
@[simp] theorem resetBlock_resBits : (resetBlock s).resBits = 0#7 := rfl
@[simp] theorem resetBlock_resValue : (resetBlock s).resValue = 0#32 := rfl
@[simp] theorem resetBlock_encSeq : (resetBlock s).encSeq = [] := rfl
@[simp] theorem resetBlock_encIdx : (resetBlock s).encIdx = 0 := rfl
@[simp] theorem resetBlock_emLine : (resetBlock s).emLine = .off := rfl
@[simp] theorem resetBlock_emCarrier : (resetBlock s).emCarrier = Config.freeCarrier s.draws := rfl
@[simp] theorem resetBlock_emLeft : (resetBlock s).emLeft = 0 := rfl
@[simp] theorem resetBlock_tolPct : (resetBlock s).tolPct = s.tolPct := rfl
@[simp] theorem resetBlock_busData : (resetBlock s).busData = s.busData := rfl
@[simp] theorem resetBlock_sent : (resetBlock s).sent = s.sent := rfl
@[simp] theorem resetBlock_program : (resetBlock s).program = s.program := rfl
@[simp] theorem resetBlock_schedule : (resetBlock s).schedule = s.schedule := rfl
@[simp] theorem resetBlock_thereafter : (resetBlock s).thereafter = s.thereafter := rfl
@[simp] theorem resetBlock_draws : (resetBlock s).draws = s.draws + 1 := rfl

/-! ### advanceEncoder -/

@[simp] theorem advanceEncoder_frameLen : (advanceEncoder s).frameLen = s.frameLen := by unfold advanceEncoder; split <;> rfl
@[simp] theorem advanceEncoder_frame : (advanceEncoder s).frame = s.frame := by unfold advanceEncoder; split <;> rfl
@[simp] theorem advanceEncoder_capCount : (advanceEncoder s).capCount = s.capCount := by unfold advanceEncoder; split <;> rfl
@[simp] theorem advanceEncoder_cap : (advanceEncoder s).cap = s.cap := by unfold advanceEncoder; split <;> rfl
@[simp] theorem advanceEncoder_encErr : (advanceEncoder s).encErr = s.encErr := by unfold advanceEncoder; split <;> rfl
@[simp] theorem advanceEncoder_decDone : (advanceEncoder s).decDone = s.decDone := by unfold advanceEncoder; split <;> rfl
@[simp] theorem advanceEncoder_decOk : (advanceEncoder s).decOk = s.decOk := by unfold advanceEncoder; split <;> rfl
@[simp] theorem advanceEncoder_decErr : (advanceEncoder s).decErr = s.decErr := by unfold advanceEncoder; split <;> rfl
@[simp] theorem advanceEncoder_failPos : (advanceEncoder s).failPos = s.failPos := by unfold advanceEncoder; split <;> rfl
@[simp] theorem advanceEncoder_resBits : (advanceEncoder s).resBits = s.resBits := by unfold advanceEncoder; split <;> rfl
@[simp] theorem advanceEncoder_resValue : (advanceEncoder s).resValue = s.resValue := by unfold advanceEncoder; split <;> rfl
@[simp] theorem advanceEncoder_encSeq : (advanceEncoder s).encSeq = s.encSeq := by unfold advanceEncoder; split <;> rfl
@[simp] theorem advanceEncoder_emLine : (advanceEncoder s).emLine = s.emLine := by unfold advanceEncoder; split <;> rfl
@[simp] theorem advanceEncoder_emCarrier : (advanceEncoder s).emCarrier = s.emCarrier := by unfold advanceEncoder; split <;> rfl
@[simp] theorem advanceEncoder_emLeft : (advanceEncoder s).emLeft = s.emLeft := by unfold advanceEncoder; split <;> rfl
@[simp] theorem advanceEncoder_tolPct : (advanceEncoder s).tolPct = s.tolPct := by unfold advanceEncoder; split <;> rfl
@[simp] theorem advanceEncoder_busData : (advanceEncoder s).busData = s.busData := by unfold advanceEncoder; split <;> rfl
@[simp] theorem advanceEncoder_sent : (advanceEncoder s).sent = s.sent := by unfold advanceEncoder; split <;> rfl
@[simp] theorem advanceEncoder_program : (advanceEncoder s).program = s.program := by unfold advanceEncoder; split <;> rfl
@[simp] theorem advanceEncoder_schedule : (advanceEncoder s).schedule = s.schedule := by unfold advanceEncoder; split <;> rfl
@[simp] theorem advanceEncoder_thereafter : (advanceEncoder s).thereafter = s.thereafter := by unfold advanceEncoder; split <;> rfl
@[simp] theorem advanceEncoder_draws : (advanceEncoder s).draws = s.draws := by unfold advanceEncoder; split <;> rfl

/-! ### emitterElapse -/

@[simp] theorem emitterElapse_frameLen (us : Nat) : (emitterElapse us s).frameLen = s.frameLen := by unfold emitterElapse; split <;> [skip; split] <;> rfl
@[simp] theorem emitterElapse_frame (us : Nat) : (emitterElapse us s).frame = s.frame := by unfold emitterElapse; split <;> [skip; split] <;> rfl
@[simp] theorem emitterElapse_capCount (us : Nat) : (emitterElapse us s).capCount = s.capCount := by unfold emitterElapse; split <;> [skip; split] <;> rfl
@[simp] theorem emitterElapse_cap (us : Nat) : (emitterElapse us s).cap = s.cap := by unfold emitterElapse; split <;> [skip; split] <;> rfl
@[simp] theorem emitterElapse_encBusy (us : Nat) : (emitterElapse us s).encBusy = s.encBusy := by unfold emitterElapse; split <;> [skip; split] <;> rfl
@[simp] theorem emitterElapse_encDone (us : Nat) : (emitterElapse us s).encDone = s.encDone := by unfold emitterElapse; split <;> [skip; split] <;> rfl
@[simp] theorem emitterElapse_encErr (us : Nat) : (emitterElapse us s).encErr = s.encErr := by unfold emitterElapse; split <;> [skip; split] <;> rfl
@[simp] theorem emitterElapse_decDone (us : Nat) : (emitterElapse us s).decDone = s.decDone := by unfold emitterElapse; split <;> [skip; split] <;> rfl
@[simp] theorem emitterElapse_decOk (us : Nat) : (emitterElapse us s).decOk = s.decOk := by unfold emitterElapse; split <;> [skip; split] <;> rfl
@[simp] theorem emitterElapse_decErr (us : Nat) : (emitterElapse us s).decErr = s.decErr := by unfold emitterElapse; split <;> [skip; split] <;> rfl
@[simp] theorem emitterElapse_failPos (us : Nat) : (emitterElapse us s).failPos = s.failPos := by unfold emitterElapse; split <;> [skip; split] <;> rfl
@[simp] theorem emitterElapse_resBits (us : Nat) : (emitterElapse us s).resBits = s.resBits := by unfold emitterElapse; split <;> [skip; split] <;> rfl
@[simp] theorem emitterElapse_resValue (us : Nat) : (emitterElapse us s).resValue = s.resValue := by unfold emitterElapse; split <;> [skip; split] <;> rfl
@[simp] theorem emitterElapse_encSeq (us : Nat) : (emitterElapse us s).encSeq = s.encSeq := by unfold emitterElapse; split <;> [skip; split] <;> rfl
@[simp] theorem emitterElapse_encIdx (us : Nat) : (emitterElapse us s).encIdx = s.encIdx := by unfold emitterElapse; split <;> [skip; split] <;> rfl
@[simp] theorem emitterElapse_emCarrier (us : Nat) : (emitterElapse us s).emCarrier = s.emCarrier := by unfold emitterElapse; split <;> [skip; split] <;> rfl
@[simp] theorem emitterElapse_tolPct (us : Nat) : (emitterElapse us s).tolPct = s.tolPct := by unfold emitterElapse; split <;> [skip; split] <;> rfl
@[simp] theorem emitterElapse_busData (us : Nat) : (emitterElapse us s).busData = s.busData := by unfold emitterElapse; split <;> [skip; split] <;> rfl
@[simp] theorem emitterElapse_sent (us : Nat) : (emitterElapse us s).sent = s.sent := by unfold emitterElapse; split <;> [skip; split] <;> rfl
@[simp] theorem emitterElapse_program (us : Nat) : (emitterElapse us s).program = s.program := by unfold emitterElapse; split <;> [skip; split] <;> rfl
@[simp] theorem emitterElapse_schedule (us : Nat) : (emitterElapse us s).schedule = s.schedule := by unfold emitterElapse; split <;> [skip; split] <;> rfl
@[simp] theorem emitterElapse_thereafter (us : Nat) : (emitterElapse us s).thereafter = s.thereafter := by unfold emitterElapse; split <;> [skip; split] <;> rfl

/-! ### emitterAccept -/

@[simp] theorem emitterAccept_frameLen (y : Symbol) : (emitterAccept y s).frameLen = s.frameLen := by cases y <;> rfl
@[simp] theorem emitterAccept_frame (y : Symbol) : (emitterAccept y s).frame = s.frame := by cases y <;> rfl
@[simp] theorem emitterAccept_capCount (y : Symbol) : (emitterAccept y s).capCount = s.capCount := by cases y <;> rfl
@[simp] theorem emitterAccept_cap (y : Symbol) : (emitterAccept y s).cap = s.cap := by cases y <;> rfl
@[simp] theorem emitterAccept_encBusy (y : Symbol) : (emitterAccept y s).encBusy = s.encBusy := by cases y <;> rfl
@[simp] theorem emitterAccept_encDone (y : Symbol) : (emitterAccept y s).encDone = s.encDone := by cases y <;> rfl
@[simp] theorem emitterAccept_encErr (y : Symbol) : (emitterAccept y s).encErr = s.encErr := by cases y <;> rfl
@[simp] theorem emitterAccept_decDone (y : Symbol) : (emitterAccept y s).decDone = s.decDone := by cases y <;> rfl
@[simp] theorem emitterAccept_decOk (y : Symbol) : (emitterAccept y s).decOk = s.decOk := by cases y <;> rfl
@[simp] theorem emitterAccept_decErr (y : Symbol) : (emitterAccept y s).decErr = s.decErr := by cases y <;> rfl
@[simp] theorem emitterAccept_failPos (y : Symbol) : (emitterAccept y s).failPos = s.failPos := by cases y <;> rfl
@[simp] theorem emitterAccept_resBits (y : Symbol) : (emitterAccept y s).resBits = s.resBits := by cases y <;> rfl
@[simp] theorem emitterAccept_resValue (y : Symbol) : (emitterAccept y s).resValue = s.resValue := by cases y <;> rfl
@[simp] theorem emitterAccept_encSeq (y : Symbol) : (emitterAccept y s).encSeq = s.encSeq := by cases y <;> rfl
@[simp] theorem emitterAccept_encIdx (y : Symbol) : (emitterAccept y s).encIdx = s.encIdx := by cases y <;> rfl
@[simp] theorem emitterAccept_tolPct (y : Symbol) : (emitterAccept y s).tolPct = s.tolPct := by cases y <;> rfl
@[simp] theorem emitterAccept_busData (y : Symbol) : (emitterAccept y s).busData = s.busData := by cases y <;> rfl
@[simp] theorem emitterAccept_program (y : Symbol) : (emitterAccept y s).program = s.program := by cases y <;> rfl
@[simp] theorem emitterAccept_schedule (y : Symbol) : (emitterAccept y s).schedule = s.schedule := by cases y <;> rfl
@[simp] theorem emitterAccept_thereafter (y : Symbol) : (emitterAccept y s).thereafter = s.thereafter := by cases y <;> rfl
@[simp] theorem emitterAccept_draws (y : Symbol) : (emitterAccept y s).draws = s.draws := by cases y <;> rfl

/-! ### storeReg -/

@[simp] theorem storeReg_encBusy (r : Reg) (v : Word) : (storeReg r v s).encBusy = s.encBusy := by cases r <;> rfl
@[simp] theorem storeReg_encDone (r : Reg) (v : Word) : (storeReg r v s).encDone = s.encDone := by cases r <;> rfl
@[simp] theorem storeReg_encErr (r : Reg) (v : Word) : (storeReg r v s).encErr = s.encErr := by cases r <;> rfl
@[simp] theorem storeReg_decDone (r : Reg) (v : Word) : (storeReg r v s).decDone = s.decDone := by cases r <;> rfl
@[simp] theorem storeReg_decOk (r : Reg) (v : Word) : (storeReg r v s).decOk = s.decOk := by cases r <;> rfl
@[simp] theorem storeReg_decErr (r : Reg) (v : Word) : (storeReg r v s).decErr = s.decErr := by cases r <;> rfl
@[simp] theorem storeReg_failPos (r : Reg) (v : Word) : (storeReg r v s).failPos = s.failPos := by cases r <;> rfl
@[simp] theorem storeReg_resBits (r : Reg) (v : Word) : (storeReg r v s).resBits = s.resBits := by cases r <;> rfl
@[simp] theorem storeReg_resValue (r : Reg) (v : Word) : (storeReg r v s).resValue = s.resValue := by cases r <;> rfl
@[simp] theorem storeReg_encSeq (r : Reg) (v : Word) : (storeReg r v s).encSeq = s.encSeq := by cases r <;> rfl
@[simp] theorem storeReg_encIdx (r : Reg) (v : Word) : (storeReg r v s).encIdx = s.encIdx := by cases r <;> rfl
@[simp] theorem storeReg_emLine (r : Reg) (v : Word) : (storeReg r v s).emLine = s.emLine := by cases r <;> rfl
@[simp] theorem storeReg_emCarrier (r : Reg) (v : Word) : (storeReg r v s).emCarrier = s.emCarrier := by cases r <;> rfl
@[simp] theorem storeReg_emLeft (r : Reg) (v : Word) : (storeReg r v s).emLeft = s.emLeft := by cases r <;> rfl
@[simp] theorem storeReg_tolPct (r : Reg) (v : Word) : (storeReg r v s).tolPct = s.tolPct := by cases r <;> rfl
@[simp] theorem storeReg_busData (r : Reg) (v : Word) : (storeReg r v s).busData = s.busData := by cases r <;> rfl
@[simp] theorem storeReg_sent (r : Reg) (v : Word) : (storeReg r v s).sent = s.sent := by cases r <;> rfl
@[simp] theorem storeReg_program (r : Reg) (v : Word) : (storeReg r v s).program = s.program := by cases r <;> rfl
@[simp] theorem storeReg_schedule (r : Reg) (v : Word) : (storeReg r v s).schedule = s.schedule := by cases r <;> rfl
@[simp] theorem storeReg_thereafter (r : Reg) (v : Word) : (storeReg r v s).thereafter = s.thereafter := by cases r <;> rfl
@[simp] theorem storeReg_draws (r : Reg) (v : Word) : (storeReg r v s).draws = s.draws := by cases r <;> rfl

/-! ### recordDecode -/

@[simp] theorem recordDecode_frameLen (r : DecodeResult) : (recordDecode r s).frameLen = s.frameLen := by cases r <;> rfl
@[simp] theorem recordDecode_frame (r : DecodeResult) : (recordDecode r s).frame = s.frame := by cases r <;> rfl
@[simp] theorem recordDecode_capCount (r : DecodeResult) : (recordDecode r s).capCount = s.capCount := by cases r <;> rfl
@[simp] theorem recordDecode_cap (r : DecodeResult) : (recordDecode r s).cap = s.cap := by cases r <;> rfl
@[simp] theorem recordDecode_encBusy (r : DecodeResult) : (recordDecode r s).encBusy = s.encBusy := by cases r <;> rfl
@[simp] theorem recordDecode_encDone (r : DecodeResult) : (recordDecode r s).encDone = s.encDone := by cases r <;> rfl
@[simp] theorem recordDecode_encErr (r : DecodeResult) : (recordDecode r s).encErr = s.encErr := by cases r <;> rfl
@[simp] theorem recordDecode_encSeq (r : DecodeResult) : (recordDecode r s).encSeq = s.encSeq := by cases r <;> rfl
@[simp] theorem recordDecode_encIdx (r : DecodeResult) : (recordDecode r s).encIdx = s.encIdx := by cases r <;> rfl
@[simp] theorem recordDecode_emLine (r : DecodeResult) : (recordDecode r s).emLine = s.emLine := by cases r <;> rfl
@[simp] theorem recordDecode_emCarrier (r : DecodeResult) : (recordDecode r s).emCarrier = s.emCarrier := by cases r <;> rfl
@[simp] theorem recordDecode_emLeft (r : DecodeResult) : (recordDecode r s).emLeft = s.emLeft := by cases r <;> rfl
@[simp] theorem recordDecode_tolPct (r : DecodeResult) : (recordDecode r s).tolPct = s.tolPct := by cases r <;> rfl
@[simp] theorem recordDecode_busData (r : DecodeResult) : (recordDecode r s).busData = s.busData := by cases r <;> rfl
@[simp] theorem recordDecode_sent (r : DecodeResult) : (recordDecode r s).sent = s.sent := by cases r <;> rfl
@[simp] theorem recordDecode_program (r : DecodeResult) : (recordDecode r s).program = s.program := by cases r <;> rfl
@[simp] theorem recordDecode_schedule (r : DecodeResult) : (recordDecode r s).schedule = s.schedule := by cases r <;> rfl
@[simp] theorem recordDecode_thereafter (r : DecodeResult) : (recordDecode r s).thereafter = s.thereafter := by cases r <;> rfl

/-! ### runDecode -/

@[simp] theorem runDecode_frameLen : (runDecode s).frameLen = s.frameLen := by simp [runDecode]
@[simp] theorem runDecode_frame : (runDecode s).frame = s.frame := by simp [runDecode]
@[simp] theorem runDecode_capCount : (runDecode s).capCount = s.capCount := by simp [runDecode]
@[simp] theorem runDecode_cap : (runDecode s).cap = s.cap := by simp [runDecode]
@[simp] theorem runDecode_encBusy : (runDecode s).encBusy = s.encBusy := by simp [runDecode]
@[simp] theorem runDecode_encDone : (runDecode s).encDone = s.encDone := by simp [runDecode]
@[simp] theorem runDecode_encErr : (runDecode s).encErr = s.encErr := by simp [runDecode]
@[simp] theorem runDecode_encSeq : (runDecode s).encSeq = s.encSeq := by simp [runDecode]
@[simp] theorem runDecode_encIdx : (runDecode s).encIdx = s.encIdx := by simp [runDecode]
@[simp] theorem runDecode_emLine : (runDecode s).emLine = s.emLine := by simp [runDecode]
@[simp] theorem runDecode_emCarrier : (runDecode s).emCarrier = s.emCarrier := by simp [runDecode]
@[simp] theorem runDecode_emLeft : (runDecode s).emLeft = s.emLeft := by simp [runDecode]
@[simp] theorem runDecode_tolPct : (runDecode s).tolPct = s.tolPct := by simp [runDecode]
@[simp] theorem runDecode_busData : (runDecode s).busData = s.busData := by simp [runDecode]
@[simp] theorem runDecode_sent : (runDecode s).sent = s.sent := by simp [runDecode]
@[simp] theorem runDecode_program : (runDecode s).program = s.program := by simp [runDecode]
@[simp] theorem runDecode_schedule : (runDecode s).schedule = s.schedule := by simp [runDecode]
@[simp] theorem runDecode_thereafter : (runDecode s).thereafter = s.thereafter := by simp [runDecode]

/-! ### runEncode -/

@[simp] theorem runEncode_frameLen : (runEncode s).frameLen = s.frameLen := by unfold runEncode; split <;> [skip; split] <;> rfl
@[simp] theorem runEncode_frame : (runEncode s).frame = s.frame := by unfold runEncode; split <;> [skip; split] <;> rfl
@[simp] theorem runEncode_capCount : (runEncode s).capCount = s.capCount := by unfold runEncode; split <;> [skip; split] <;> rfl
@[simp] theorem runEncode_cap : (runEncode s).cap = s.cap := by unfold runEncode; split <;> [skip; split] <;> rfl
@[simp] theorem runEncode_decDone : (runEncode s).decDone = s.decDone := by unfold runEncode; split <;> [skip; split] <;> rfl
@[simp] theorem runEncode_decOk : (runEncode s).decOk = s.decOk := by unfold runEncode; split <;> [skip; split] <;> rfl
@[simp] theorem runEncode_decErr : (runEncode s).decErr = s.decErr := by unfold runEncode; split <;> [skip; split] <;> rfl
@[simp] theorem runEncode_failPos : (runEncode s).failPos = s.failPos := by unfold runEncode; split <;> [skip; split] <;> rfl
@[simp] theorem runEncode_resBits : (runEncode s).resBits = s.resBits := by unfold runEncode; split <;> [skip; split] <;> rfl
@[simp] theorem runEncode_resValue : (runEncode s).resValue = s.resValue := by unfold runEncode; split <;> [skip; split] <;> rfl
@[simp] theorem runEncode_emLine : (runEncode s).emLine = s.emLine := by unfold runEncode; split <;> [skip; split] <;> rfl
@[simp] theorem runEncode_emCarrier : (runEncode s).emCarrier = s.emCarrier := by unfold runEncode; split <;> [skip; split] <;> rfl
@[simp] theorem runEncode_emLeft : (runEncode s).emLeft = s.emLeft := by unfold runEncode; split <;> [skip; split] <;> rfl
@[simp] theorem runEncode_tolPct : (runEncode s).tolPct = s.tolPct := by unfold runEncode; split <;> [skip; split] <;> rfl
@[simp] theorem runEncode_busData : (runEncode s).busData = s.busData := by unfold runEncode; split <;> [skip; split] <;> rfl
@[simp] theorem runEncode_sent : (runEncode s).sent = s.sent := by unfold runEncode; split <;> [skip; split] <;> rfl
@[simp] theorem runEncode_program : (runEncode s).program = s.program := by unfold runEncode; split <;> [skip; split] <;> rfl
@[simp] theorem runEncode_schedule : (runEncode s).schedule = s.schedule := by unfold runEncode; split <;> [skip; split] <;> rfl
@[simp] theorem runEncode_thereafter : (runEncode s).thereafter = s.thereafter := by unfold runEncode; split <;> [skip; split] <;> rfl
@[simp] theorem runEncode_draws : (runEncode s).draws = s.draws := by unfold runEncode; split <;> [skip; split] <;> rfl

@[simp] theorem recordDecode_decDone (r : DecodeResult) : (recordDecode r s).decDone = true := by cases r <;> rfl
@[simp] theorem runDecode_decDone : (runDecode s).decDone = true := by simp [runDecode]
@[simp] theorem advanceEncoder_encIdx : (advanceEncoder s).encIdx = s.encIdx + 1 := by
  unfold advanceEncoder; split <;> rfl
@[simp] theorem emitterAccept_sent (y : Symbol) : (emitterAccept y s).sent = s.sent ++ [symbolWord y] := by
  cases y <;> rfl
@[simp] theorem emitterAccept_emLeft (y : Symbol) : (emitterAccept y s).emLeft = symbolUs y := by cases y <;> rfl

end Sys2Proof.Machine
end

