-- ==== Sys2Proof/Laws/Ops.lean ====
section
/-! SUPPORT. One lemma per shared operation that says everything it can do: the register map, the bus, the commands, the
emitter, the encoder's advance; and the steps of a decode. Later proofs cite these and do not unfold the operations. -/

namespace Sys2Proof.Machine

/-! ### The register map -/

/-- Every register stands at its offset (10 R20). -/
@[simp] theorem regAt_regOffset (r : Reg) : regAt (regOffset r) = some r := by
  cases r with
  | frame i => revert i; decide
  | cap i => revert i; decide +kernel
  | _ => rfl

/-- An offset with a register is that register's. -/
theorem regOffset_of_regAt {off : Off} {r : Reg} (h : regAt off = some r) : regOffset r = off := by
  have hlt := off.isLt
  simp only [regAt] at h
  apply BitVec.eq_of_toNat_eq
  repeat' split at h
  all_goals first | cases h; done | (simp only [Option.some.injEq] at h; subst h)
  all_goals simp only [regOffset, BitVec.toNat_ofNat]; omega

/-- A register's offset is a multiple of 4 (10 R20). -/
@[simp] theorem offAligned_regOffset (r : Reg) : offAligned (regOffset r) = true := by
  rw [offAligned_iff]
  cases r <;> simp [regOffset]

@[simp] theorem busRead_regOffset (r : Reg) (s : State) : busRead (regOffset r) s = readReg r s := by
  simp [busRead]

@[simp] theorem busWrite_cmd (v : Word) (s : State) : busWrite (regOffset .cmd) v s = runCommand v s := by
  simp [busWrite]

theorem busWrite_regOffset {r : Reg} (hr : r ≠ .cmd) (v : Word) (s : State) :
    busWrite (regOffset r) v s = storeReg r v s := by
  (cases r <;> simp [busWrite]); exact absurd rfl hr

/-- What a bus write can do (42 R141). -/
theorem busWrite_cases (off : Off) (v : Word) (s : State) :
    (off = regOffset .cmd ∧ busWrite off v s = runCommand v s) ∨
    (∃ r, r ≠ .cmd ∧ off = regOffset r ∧ busWrite off v s = storeReg r v s) ∨
    (regAt off = none ∧ busWrite off v s = s) := by
  cases h : regAt off with
  | none => exact .inr (.inr ⟨rfl, by simp [busWrite, h]⟩)
  | some r =>
    have ho := (regOffset_of_regAt h).symm
    subst ho
    by_cases hr : r = .cmd
    · subst hr; exact .inl ⟨rfl, busWrite_cmd v s⟩
    · exact .inr (.inl ⟨r, hr, rfl, busWrite_regOffset hr v s⟩)

/-- A register other than the one written reads as before. -/
theorem readReg_storeReg_of_ne {r q : Reg} (h : q ≠ r) (v : Word) (s : State) :
    readReg q (storeReg r v s) = readReg q s := by
  cases r <;> cases q <;>
    first
    | rfl
    | exact absurd rfl h
    | (simp only [ne_eq, Reg.frame.injEq, Reg.cap.injEq, Fin.ext_iff] at h
       simp only [readReg, storeReg, Fin.getElem_fin]
       rw [Vector.getElem_set_ne _ _ (fun e => h e.symm)])

/-! ### The commands -/

/-- What an ENCODE can do (40 R93). -/
theorem runEncode_cases (s : State) :
    (s.encBusy = true ∧ runEncode s = refuseEncode .busy s) ∨
    (s.encBusy = false ∧ s.frameLen.toNat ∈ legalLen ∧
      runEncode s = acceptEncode ((symbols (frameBytes s)).map symbolWord) s) ∨
    (s.encBusy = false ∧ s.frameLen.toNat ∉ legalLen ∧ runEncode s = refuseEncode .badLen s) := by
  unfold runEncode
  cases s.encBusy <;> by_cases h : s.frameLen.toNat ∈ legalLen <;> simp [h]

/-- What a DECODE can do (41 R117). -/
theorem runDecode_cases (s : State) :
    (∃ b v, decodePulses (tolerance s) (captureOf s) = .ok b v ∧ runDecode s = recordDecoded b v s) ∨
    (∃ e p, decodePulses (tolerance s) (captureOf s) = .fail e p ∧ runDecode s = recordMismatch e p s) := by
  unfold runDecode
  cases h : decodePulses (tolerance s) (captureOf s) with
  | ok b v => exact .inl ⟨b, v, rfl, rfl⟩
  | fail e p => exact .inr ⟨e, p, rfl, rfl⟩

/-- What a write to CMD can do (30 R71). -/
theorem runCommand_cases (v : Word) (s : State) :
    (opcodeOf v = 0x01#8 ∧ runCommand v s = runEncode s) ∨
    (opcodeOf v = 0x02#8 ∧ runCommand v s = runDecode s) ∨
    (opcodeOf v ≠ 0x01#8 ∧ opcodeOf v ≠ 0x02#8 ∧ runCommand v s = s) := by
  unfold runCommand
  by_cases h1 : opcodeOf v = 0x01#8
  · exact .inl ⟨h1, if_pos h1⟩
  · by_cases h2 : opcodeOf v = 0x02#8
    · exact .inr (.inl ⟨h2, by rw [if_neg h1, if_pos h2]⟩)
    · exact .inr (.inr ⟨h1, h2, by rw [if_neg h1, if_neg h2]⟩)

/-- The OPCODE of a command word as a number. -/
theorem opcodeOf_toNat (v : Word) : (opcodeOf v).toNat = v.toNat % 256 := by
  simp [opcodeOf]

/-- A command word runs the command a write of it to CMD runs (42 R144). -/
theorem exec_decodeCmdWord (v : Word) (s : State) : exec (decodeCmdWord v) s = .next (runCommand v s) := by
  simp only [decodeCmdWord, runCommand, opcodeOf]
  repeat' split
  all_goals simp_all [exec, execNop, execEncode, execDecode, execReservedCmd]

/-- A WR to an aligned offset is the bus write (42 R141). -/
theorem exec_wr {off : Off} (h : offAligned off = true) (v : Word) (s : State) :
    exec (.wr off v) s = .next (busWrite off v s) := by simp [exec, execWr, h]

/-- An RD of an aligned offset is the bus read (42 R140). -/
theorem exec_rd {off : Off} (h : offAligned off = true) (s : State) :
    exec (.rd off) s = .next { s with busData := busRead off s } := by simp [exec, execRd, h]

/-- A symbol's instruction has the emitter accept it (30 R76). -/
theorem exec_symbol (y : Symbol) (s : State) :
    exec (symbolInstr y) s =
      .next (emitterAccept y s) := by cases y <;> rfl

/-! ### The emitter and the encoder -/

/-- What the passing of time does at the emitter (30 R76). -/
theorem emitterElapse_cases (us : Nat) (s : State) :
    (s.emLeft = 0 ∧ emitterElapse us s = s) ∨
    (us < s.emLeft ∧ emitterElapse us s = { s with emLeft := s.emLeft - us }) ∨
    (s.emLeft ≠ 0 ∧ s.emLeft ≤ us ∧ emitterElapse us s =
      { s with
        emLeft := 0, emLine := if Config.freeLineOn s.draws then .modulated else .off, draws := s.draws + 1 }) := by
  unfold emitterElapse
  by_cases h0 : s.emLeft = 0
  · exact .inl ⟨h0, if_pos h0⟩
  · by_cases hu : us < s.emLeft
    · exact .inr (.inl ⟨hu, by rw [if_neg h0, if_pos hu]⟩)
    · exact .inr (.inr ⟨h0, by omega, by rw [if_neg h0, if_neg hu]⟩)

/-- The encoder's advance (40 R94, R95). -/
theorem advanceEncoder_cases (s : State) :
    (s.encIdx + 1 = s.encSeq.length ∧
      advanceEncoder s = { s with encIdx := s.encIdx + 1, encBusy := false, encDone := true }) ∨
    (s.encIdx + 1 ≠ s.encSeq.length ∧ advanceEncoder s = { s with encIdx := s.encIdx + 1 }) := by
  unfold advanceEncoder
  by_cases h : s.encIdx + 1 = s.encSeq.length
  · exact .inl ⟨h, if_pos h⟩
  · exact .inr ⟨h, if_neg h⟩

/-! ### The steps of a decode -/

/-- 41 R110. -/
theorem inBand_iff (T d ref : Nat) :
    inBand T d ref = true ↔ ref * (100 - T) ≤ 100 * d ∧ 100 * d ≤ ref * (100 + T) := by simp [inBand]

/-- The bits of step 4 hold from bit `i` on, `k` of them (41 R115). -/
theorem scanBits_succ (T : Nat) (e : List Dur) (bits : BitVec 7) (i k : Nat) (acc : Word) :
    scanBits T e bits i (k + 1) acc =
      if inBand T (durAt e (3 + 2 * i)) 550 then
        match classify T (durAt e (4 + 2 * i)) with
        | none => .fail .bitSpace (BitVec.ofNat 8 (4 + 2 * i))
        | some b => scanBits T e bits (i + 1) k (acc <<< 1 ||| (BitVec.ofBool b).setWidth 32)
      else .fail .bitMark (BitVec.ofNat 8 (3 + 2 * i)) := rfl

/-- A successful scan keeps the bit count it was given (41 R115). -/
theorem scanBits_ok {T : Nat} {e : List Dur} {bits b : BitVec 7} {i k : Nat} {acc v : Word}
    (h : scanBits T e bits i k acc = .ok b v) : b = bits := by
  induction k generalizing i acc with
  | zero => cases h; rfl
  | succ k ih =>
    rw [scanBits_succ] at h
    split at h
    · split at h
      · cases h
      · exact ih h
    · cases h

/-- A failed scan reports a mark or a space of one of its bits (41 R115, 60 R151). -/
theorem scanBits_fail {T : Nat} {e : List Dur} {bits : BitVec 7} {i k : Nat} {acc : Word} {code : DecErr}
    {pos : BitVec 8} (h : scanBits T e bits i k acc = .fail code pos) :
    ∃ j, i ≤ j ∧ j < i + k ∧
      (code = .bitMark ∧ pos = BitVec.ofNat 8 (3 + 2 * j) ∨ code = .bitSpace ∧ pos = BitVec.ofNat 8 (4 + 2 * j)) := by
  induction k generalizing i acc with
  | zero => cases h
  | succ k ih =>
    rw [scanBits_succ] at h
    split at h
    · split at h
      · cases h; exact ⟨i, by omega, by omega, .inr ⟨rfl, rfl⟩⟩
      · obtain ⟨j, h1, h2, h3⟩ := ih h
        exact ⟨j, by omega, by omega, h3⟩
    · cases h; exact ⟨i, by omega, by omega, .inl ⟨rfl, rfl⟩⟩

/-- A passed gate: the bit count is legal and the length one of the two that give it (41 R112). -/
theorem gate_some {n N : Nat} (h : gate n = some N) : N ∈ legalBits ∧ (n = 2 * N + 3 ∨ n = 2 * N + 4) := by
  unfold gate at h
  split at h
  · cases h
  · split at h
    · next hm =>
      cases h
      exact ⟨hm, by omega⟩
    · cases h

/-- The register fields hold legal bit counts without loss (10 R34). -/
theorem legalBits_toNat {N : Nat} (h : N ∈ legalBits) : (BitVec.ofNat 7 N).toNat = N := by
  simp only [legalBits, List.mem_cons, List.not_mem_nil, or_false] at h
  rcases h with rfl | rfl | rfl <;> rfl

/-! ### The train -/

/-- Each byte is 16 pulses (40 R90). -/
@[simp] theorem bytePulses_length (b : Byte) : (bytePulses b).length = 16 := by simp [bytePulses, byteBits, bitPulses]

/-- The pulses of the bytes of a frame. -/
@[simp] theorem flatMap_bytePulses_length (f : List Byte) : (f.flatMap bytePulses).length = 16 * f.length := by
  induction f with
  | nil => rfl
  | cons b f ih => simp [ih]; omega

/-- The symbols of a train end with the sentinel (40 R90, R95). -/
theorem symbols_eq_append (f : List Byte) :
    symbols f = .carrier carrierKhz :: .mark hdrMarkUs :: .space hdrSpaceUs ::
      (f.flatMap bytePulses ++ [.mark trailerMarkUs]) ++ [.space 0#16] := by
  simp [symbols, train]

/-- A byte's pulse pairs, most significant bit first (40 R90, 20 R57). -/
theorem bytePulses_getElem (b : Byte) {k : Nat} (hk : k < 8) :
    (bytePulses b)[2 * k]? = some (.mark bitMarkUs) ∧
      (bytePulses b)[2 * k + 1]? = some (.space (if b.getLsbD (7 - k) then oneSpaceUs else zeroSpaceUs)) := by
  interval_cases k <;> simp [bytePulses, byteBits, bitPulses]

/-- The pulses of byte `j` stand from element `16 * j` on (40 R90). -/
theorem flatMap_bytePulses_getElem {f : List Byte} {j m : Nat} {b : Byte} (hm : m < 16) (h : f[j]? = some b) :
    (f.flatMap bytePulses)[16 * j + m]? = (bytePulses b)[m]? := by
  induction f generalizing j with
  | nil => simp at h
  | cons a f ih =>
    rw [List.flatMap_cons]
    cases j with
    | zero =>
      simp only [List.getElem?_cons_zero, Option.some.injEq] at h
      subst h
      rw [List.getElem?_append_left (by simp; omega), Nat.mul_zero, Nat.zero_add]
    | succ j =>
      rw [List.getElem?_append_right (by simp; omega), ← ih (by simpa using h)]
      congr 1
      simp
      omega

/-- The durations of a bit (40 R90). -/
def bitDurs (x : Bool) : List Dur := [bitMarkUs, if x then oneSpaceUs else zeroSpaceUs]

/-- The capture of a train, element by element in order (41 R120). -/
theorem capture_train (f : List Byte) (g : Dur) :
    capture (train f) g =
      [g, hdrMarkUs, hdrSpaceUs] ++ f.flatMap (fun b => (byteBits b).flatMap bitDurs) ++ [trailerMarkUs] := by
  have bit : ∀ x, (bitPulses x).filterMap pulseDur = bitDurs x := by decide
  have byte (b : Byte) : (bytePulses b).filterMap pulseDur = (byteBits b).flatMap bitDurs := by
    unfold bytePulses
    induction byteBits b with
    | nil => rfl
    | cons x l ih => rw [List.flatMap_cons, List.filterMap_append, ih, bit, List.flatMap_cons]
  have bytes : (f.flatMap bytePulses).filterMap pulseDur = f.flatMap (fun b => (byteBits b).flatMap bitDurs) := by
    induction f with
    | nil => rfl
    | cons b l ih => rw [List.flatMap_cons, List.filterMap_append, ih, byte, List.flatMap_cons]
  unfold capture train
  rw [List.filterMap_append, List.filterMap_append, bytes]
  rfl

/-- Distinct symbols have distinct words (30 R74). -/
theorem symbolWord_injective {a b : Symbol} (h : symbolWord a = symbolWord b) : a = b := by
  have e := decode_symbolWord a
  rw [h, decode_symbolWord b] at e
  cases a <;> cases b <;> simp_all [symbolInstr]

end Sys2Proof.Machine
end

