-- ==== Sys2Proof/Laws/PerInstr.lean ====
section
/-! SUPPORT. Statements made per instruction. `EncodesIntoItsRow`: the word the encoder writes for a well-formed instruction
has its row's width and, under the row's mask, the row's pattern (spec/opcode_table.json). -/

namespace Sys2Proof.Laws.EncodesIntoItsRow

/-- The word of a well-formed instruction belongs to the instruction's row of the opcode table. -/
def Statement (i : Instr) : Prop := WellFormed i = true → InRow (encode i) (rowOf i)

theorem cmd_and (opcode : BitVec 8) (ign : BitVec 24) : (cmdWord opcode ign).toNat &&& 0x000000FF = opcode.toNat := by
  rw [show (0x000000FF : Nat) = 2 ^ 8 - 1 from rfl, Nat.and_two_pow_sub_one_eq_mod, cmdWord_toNat]
  omega

theorem two_bits (v : BitVec 2) : v &&& 0b11#2 = v := by
  ext i hi; interval_cases i <;> simp

theorem sym_and (kind : BitVec 2) (arg : BitVec 16) : (symWord kind arg).toNat &&& 0x30000 = kind.toNat * 2 ^ 16 := by
  have h : (kind ++ arg) &&& (0b11#2 ++ 0#16) = (kind &&& 0b11#2) ++ (arg &&& 0#16) := BitVec.and_append
  have h' := congrArg BitVec.toNat h
  rw [two_bits, BitVec.and_zero, append_toNat, BitVec.toNat_and,
    show (0b11#2 ++ 0#16).toNat = 0x30000 by decide] at h'
  simpa [symWord] using h'

/-- A host-operation word under the mask of OP, the zero bits, the low two bits of OFF, and `m` of DATA. -/
theorem how_and (op : BitVec 2) (off : Off) (data m : Word) :
    (howWord op off data).toNat &&& (0b11#2 ++ BitVec.allOnes 19 ++ 0b11#11 ++ m).toNat =
      (howWord op (off &&& 0b11#11) (data &&& m)).toNat := by
  have h : (op ++ 0#19 ++ off ++ data) &&& (0b11#2 ++ BitVec.allOnes 19 ++ 0b11#11 ++ m) =
      (op &&& 0b11#2) ++ (0#19 &&& BitVec.allOnes 19) ++ (off &&& 0b11#11) ++ (data &&& m) := by
    rw [BitVec.and_append, BitVec.and_append, BitVec.and_append]
  have h' := congrArg BitVec.toNat h
  rw [two_bits, BitVec.zero_and, BitVec.toNat_and] at h'
  exact h'

theorem aligned_and {off : Off} (h : offAligned off = true) : off &&& 0b11#11 = 0#11 := by
  apply BitVec.eq_of_toNat_eq
  rw [BitVec.toNat_and]
  have := (offAligned_iff off).mp h
  rw [show (3#11).toNat = 2 ^ 2 - 1 from rfl, Nat.and_two_pow_sub_one_eq_mod]
  simpa using this

theorem nop (ign : BitVec 24) : Statement (.nop ign) := fun _ => ⟨rfl, cmd_and _ _⟩

theorem encodeCmd (ign : BitVec 24) : Statement (.encodeCmd ign) := fun _ => ⟨rfl, cmd_and _ _⟩

theorem decodeCmd (ign : BitVec 24) : Statement (.decodeCmd ign) := fun _ => ⟨rfl, cmd_and _ _⟩

theorem reservedCmd (opcode : BitVec 8) (ign : BitVec 24) : Statement (.reservedCmd opcode ign) :=
  fun _ => ⟨rfl, Nat.and_zero _⟩

theorem rd (off : Off) : Statement (.rd off) := fun h => by
  refine ⟨rfl, (how_and 0b00#2 off 0#32 (BitVec.allOnes 32)).trans ?_⟩
  rw [aligned_and h, BitVec.zero_and]; rfl

theorem wr (off : Off) (data : Word) : Statement (.wr off data) := fun h => by
  refine ⟨rfl, (how_and 0b01#2 off data 0#32).trans ?_⟩
  rw [aligned_and h, BitVec.and_zero]; rfl

theorem carrier (arg : BitVec 16) : Statement (.carrier arg) := fun _ => ⟨rfl, sym_and _ _⟩

theorem mark (arg : Dur) : Statement (.mark arg) := fun _ => ⟨rfl, sym_and _ _⟩

theorem space (arg : Dur) : Statement (.space arg) := fun _ => ⟨rfl, sym_and _ _⟩

end Sys2Proof.Laws.EncodesIntoItsRow
end

