-- ==== Sys2Proof/Laws/Step.lean ====
section
/-! SUPPORT. What a step can do, said once (`step_cases`): every later claim about steps is a case analysis over it. -/

namespace Sys2Proof.Machine

/-- The state a host's turn hands to its instruction: the turn and, where the line is used up, the line are gone. -/
def afterFetch (s : State) (p : List HostLine) : State := { popSchedule s with program := p }

/-- Everything a host's turn that goes on can do (42 R140, R141, R144, R145): nothing beyond using up the turn and perhaps
a line; an ENCODE; a DECODE; a store to a register other than CMD; a read. -/
inductive HostEffect (s : State) (p : List HostLine) : State → Prop where
  | nothing : HostEffect s p (afterFetch s p)
  | encode (h : RunsCommand s 0x01#8) : HostEffect s p (runEncode (afterFetch s p))
  | decode (h : RunsCommand s 0x02#8) : HostEffect s p (runDecode (afterFetch s p))
  | store (r : Reg) (v : Word) (hr : r ≠ .cmd) (h : HostRuns s (.wr (regOffset r) v)) :
      HostEffect s p (storeReg r v (afterFetch s p))
  | read (d : Word) : HostEffect s p { afterFetch s p with busData := d }

/-- A CMD word run by the host. -/
theorem hostEffect_command {s t : State} {p : List HostLine} {w : Word} (hr : HostRuns s (decodeCmdWord w))
    (h : exec (decodeCmdWord w) (afterFetch s p) = .next t) : HostEffect s p t := by
  have hop : ∀ op, opcodeOf w = op → (op = 0x01#8 ∨ op = 0x02#8) → RunsCommand s op := by
    intro op ho h12
    refine ⟨_, hr, ?_⟩
    simp only [decodeCmdWord, opcodeOf] at *
    rcases h12 with rfl | rfl <;> simp [ho]
  rw [exec_decodeCmdWord] at h
  cases h
  rcases runCommand_cases w (afterFetch s p) with ⟨ho, he⟩ | ⟨ho, he⟩ | ⟨-, -, he⟩ <;> rw [he]
  · exact .encode (hop _ ho (.inl rfl))
  · exact .decode (hop _ ho (.inr rfl))
  · exact .nothing

/-- A WR run by the host. -/
theorem hostEffect_wr {s t : State} {p : List HostLine} {off : Off} {v : Word} (hr : HostRuns s (.wr off v))
    (h : exec (.wr off v) (afterFetch s p) = .next t) : HostEffect s p t := by
  by_cases ha : offAligned off = true
  · rw [exec_wr ha] at h
    cases h
    rcases busWrite_cases off v (afterFetch s p) with ⟨ho, he⟩ | ⟨r, hne, ho, he⟩ | ⟨-, he⟩ <;> rw [he]
    · rcases runCommand_cases v (afterFetch s p) with ⟨h1, he⟩ | ⟨h1, he⟩ | ⟨-, -, he⟩ <;> rw [he]
      · exact .encode ⟨_, hr, ho, h1.symm⟩
      · exact .decode ⟨_, hr, ho, h1.symm⟩
      · exact .nothing
    · subst ho; exact .store r v hne hr
    · exact .nothing
  · simp [exec, execWr, ha] at h

/-- An RD run by the host. -/
theorem hostEffect_rd {s t : State} {p : List HostLine} {off : Off}
    (h : exec (.rd off) (afterFetch s p) = .next t) : HostEffect s p t := by
  by_cases ha : offAligned off = true
  · rw [exec_rd ha] at h
    cases h
    exact .read _
  · simp [exec, execRd, ha] at h

/-- What a host's turn can do. -/
theorem hostTurn_cases {s t : State} (hn : nextTurn s = .host) (h : hostTurn (popSchedule s) = .next t) :
    ∃ p, HostEffect s p t := by
  have hp : (popSchedule s).program = s.program := rfl
  simp only [hostTurn, hp] at h
  split at h
  · cases h; exact ⟨s.program, .nothing⟩
  · next w rest hl =>
    refine ⟨rest, ?_⟩
    simp only [runWord] at h
    split at h
    · next i hi =>
      have hr : HostRuns s i := ⟨hn, _, _, hl, hi⟩
      obtain ⟨off, data, -, ⟨rfl, -⟩ | ⟨rfl, -⟩⟩ := decodeHowWord_ok hi
      · exact hostEffect_rd h
      · exact hostEffect_wr hr h
    · cases h
  · next w rest hl =>
    refine ⟨rest, ?_⟩
    exact hostEffect_command (w := w) ⟨hn, _, _, hl, rfl⟩ h
  · next a rest hl =>
    refine ⟨rest, ?_⟩
    simp only [runAccess] at h
    split at h
    · next hw =>
      have hr : HostRuns s (if a.write then .wr a.off a.data else .rd a.off) := ⟨hn, _, _, hl, hw, rfl⟩
      split at h
      · next hwr => rw [if_pos hwr] at hr; exact hostEffect_wr hr h
      · exact hostEffect_rd h
    · cases h
  · next off mask value rest hl =>
    by_cases ha : offAligned off = true
    · rw [exec_rd ha] at h
      simp only [pollDone] at h
      split at h
      · cases h; exact ⟨rest, .read _⟩
      · cases h; exact ⟨s.program, .read _⟩
    · simp [exec, execRd, ha] at h

/-- What an encoder's turn can do (40 R94): nothing where the hand-over is not enabled, and otherwise the hand-over of the
offered symbol. -/
theorem encoderTurn_cases {s t : State} (h : encoderTurn s = .next t) :
    ((s.encBusy = false ∨ s.emLeft ≠ 0) ∧ t = s) ∨
    (s.encBusy = true ∧ s.emLeft = 0 ∧
      ∃ y, s.encSeq[s.encIdx]? = some (symbolWord y) ∧ t = emitterAccept y (advanceEncoder s)) := by
  unfold encoderTurn at h
  split at h
  · next hb =>
    simp only [symValid, symReady, Bool.and_eq_true, beq_iff_eq] at hb
    refine .inr ⟨hb.1, hb.2, ?_⟩
    split at h
    · cases h
    · next w hw =>
      split at h
      · next i hi =>
        obtain ⟨y, rfl, rfl⟩ := decodeSymWord_ok hi
        rw [exec_symbol] at h
        cases h
        exact ⟨y, hw, rfl⟩
      · cases h
  · next hb =>
    cases h
    refine .inl ⟨?_, rfl⟩
    simp only [symValid, symReady, Bool.and_eq_true, beq_iff_eq, not_and] at hb
    cases hs : s.encBusy with
    | false => exact .inl rfl
    | true => exact .inr (hb hs)

/-- The head of the schedule moves (log 1). -/
@[simp] theorem nextTurn_cons (s : State) (u : Turn) (later : List Turn) :
    nextTurn { s with schedule := u :: later } = u := rfl

/-- With the schedule used up, the turn `thereafter` names moves (log 31). -/
theorem nextTurn_thereafter {s : State} {u : Turn} (hs : s.schedule = []) (ht : s.thereafter = some u) :
    nextTurn s = u := by simp [nextTurn, hs, ht]

/-- With the schedule used up and nothing named for thereafter, the default order holds (log 2). -/
theorem nextTurn_default {s : State} (hs : s.schedule = []) (ht : s.thereafter = none) :
    nextTurn s = defaultTurn s := by simp [nextTurn, hs, ht]

/-- What a step that goes on can do. -/
theorem step_cases {s t : State} (h : step s = .next t) :
    (nextTurn s = .host ∧ ∃ p, HostEffect s p t) ∨
    (nextTurn s = .encoder ∧
      (((s.encBusy = false ∨ s.emLeft ≠ 0) ∧ t = popSchedule s) ∨
        (s.encBusy = true ∧ s.emLeft = 0 ∧
          ∃ y, s.encSeq[s.encIdx]? = some (symbolWord y) ∧ t = emitterAccept y (advanceEncoder (popSchedule s))))) ∨
    (∃ us, nextTurn s = .elapse us ∧ t = emitterElapse us (popSchedule s)) ∨
    (nextTurn s = .reset ∧ t = resetBlock (popSchedule s)) := by
  simp only [step, takeTurn] at h
  split at h
  · next hn => exact .inl ⟨hn, hostTurn_cases hn h⟩
  · next hn => exact .inr (.inl ⟨hn, encoderTurn_cases h⟩)
  · next us hn => cases h; exact .inr (.inr (.inl ⟨us, hn, rfl⟩))
  · next hn => cases h; exact .inr (.inr (.inr ⟨hn, rfl⟩))

/-- No step writes who moves thereafter (log 31). -/
theorem step_thereafter {s t : State} (h : step s = .next t) : t.thereafter = s.thereafter := by
  rcases step_cases h with ⟨-, p, he⟩ | ⟨-, ⟨-, rfl⟩ | ⟨-, -, y, -, rfl⟩⟩ | ⟨us, -, rfl⟩ | ⟨-, rfl⟩
  · cases he <;> simp [afterFetch]
  all_goals simp

/-- Only the encoder's turn can fault (60 R153: an error is no fault). -/
theorem step_fault {s : State} {r : Fault} (h : step s = .fault r) :
    nextTurn s = .encoder ∧ s.encBusy = true ∧
      (s.encSeq[s.encIdx]? = none ∨
        ∃ w e, s.encSeq[s.encIdx]? = some w ∧ Sys2Proof.decode (.sym w) = .error e) := by
  have hx : ∀ i u, exec i u ≠ Host.Outcome.fault r := by
    intro i u
    cases i <;> simp [exec, execNop, execEncode, execDecode, execReservedCmd, execRd, execWr, execCarrier, execMark, execSpace]
    all_goals split <;> simp
  simp only [step, takeTurn] at h
  split at h
  · exfalso
    simp only [hostTurn] at h
    split at h
    · cases h
    · simp only [runWord] at h; split at h <;> [exact hx _ _ h; cases h]
    · simp only [runWord] at h; split at h <;> [exact hx _ _ h; cases h]
    · simp only [runAccess] at h
      split at h
      · split at h <;> exact hx _ _ h
      · cases h
    · split at h
      · cases h
      · next he => cases h; exact hx _ _ he
      · cases h
  · next hn =>
    refine ⟨hn, ?_⟩
    unfold encoderTurn at h
    split at h
    · next hb =>
      simp only [symValid, symReady, Bool.and_eq_true] at hb
      refine ⟨hb.1, ?_⟩
      split at h
      · next hw => exact .inl hw
      · next w hw =>
        split at h
        · exact absurd h (hx _ _)
        · next e he => exact .inr ⟨w, e, hw, he⟩
    · cases h
  · cases h
  · cases h

/-! ### Runs of several steps -/

theorem run_zero (s : State) : core.run 0 s = .next s := rfl

theorem run_next {k : Nat} {s t : State} (h : step s = .next t) : core.run (k + 1) s = core.run k t := by
  have e : core.step s = .next t := h
  simp only [Host.Core.run]
  rw [e]

theorem run_fault {k : Nat} {s : State} {r : Fault} (h : step s = .fault r) : core.run (k + 1) s = .fault r := by
  have e : core.step s = .fault r := h
  simp only [Host.Core.run]
  rw [e]

theorem run_refused {k : Nat} {s : State} {r : Refusal} (h : step s = .refused r) :
    core.run (k + 1) s = .refused r := by
  have e : core.step s = .refused r := h
  simp only [Host.Core.run]
  rw [e]

/-- A run goes on from where a shorter run of it ends. -/
theorem run_add (a b : Nat) : ∀ s t : State, core.run a s = .next t → core.run (a + b) s = core.run b t := by
  induction a with
  | zero => intro s t h; cases h; rw [Nat.zero_add]
  | succ a ih =>
    intro s t h
    rw [show a + 1 + b = a + b + 1 by omega]
    cases hs : step s with
    | next u => rw [run_next hs] at h ⊢; exact ih u t h
    | fault r => rw [run_fault hs] at h; cases h
    | refused r => rw [run_refused hs] at h; cases h

end Sys2Proof.Machine
end

