-- ==== Sys2Proof/Tests/Slice0.lean ====
section
/-! SUPPORT. Tests with expected results from the spec's worked encodings and its test vectors (named in each comment), and
for every statement with hypotheses a witness that meets them. -/

namespace Sys2Proof.Tests

open Sys2Proof Sys2Proof.Machine

/-! ### Well-formedness -/

/-- 30 R72: OPCODEs 0, 1 and 2 are not reserved. -/
theorem test_reserved_needs_reserved_opcode :
    WellFormed (.reservedCmd 0x02 0) = false ∧ WellFormed (.reservedCmd 0x00 0) = false ∧
      WellFormed (.reservedCmd 0x03 0) = true ∧ WellFormed (.reservedCmd 0xFF 0) = true := by decide

/-- 30 R79: the low two bits of OFF are zero. -/
theorem test_offsets_need_alignment :
    WellFormed (.rd 0x012) = false ∧ WellFormed (.wr 0x001 5) = false ∧ WellFormed (.wr 0x003 5) = false ∧
      WellFormed (.rd 0x7FC) = true := by decide

/-! ### Decoding: one word of each row, bit by bit from the spec's layouts -/

/-- 30 R71, 0x00. Bits 31:8 are ignored. -/
theorem test_decode_nop : decode (.cmd 0b10100000000000000000000100000000#32) = .ok (.nop 0xA00001) := by decide

/-- 30 R71, 0x01. -/
theorem test_decode_encode : decode (.cmd 0b00000000000000000000000000000001#32) = .ok (.encodeCmd 0) := by decide

/-- 30 R71, 0x02. -/
theorem test_decode_decode : decode (.cmd 0b00000000000000000000000000000010#32) = .ok (.decodeCmd 0) := by decide

/-- 30 R71, R72: the first and the last reserved OPCODE. -/
theorem test_decode_reserved :
    decode (.cmd 0b00000000000000000000000000000011#32) = .ok (.reservedCmd 0x03 0) ∧
      decode (.cmd 0b00000000000000000000000011111111#32) = .ok (.reservedCmd 0xFF 0) := by decide

/-- 30 R79, the worked encodings `RD ENC_STATUS` and `RD RES_VALUE`. -/
theorem test_decode_rd :
    decode (.how 0x0000000400000000#64) = .ok (.rd 0x004) ∧
      decode (.how 0x0000004800000000#64) = .ok (.rd 0x048) := by decide

/-- 30 R79, the worked encodings `WR FRAME_LEN, 7` and `WR CAP3, 550`. -/
theorem test_decode_wr :
    decode (.how 0x4000000C00000007#64) = .ok (.wr 0x00C 7) ∧
      decode (.how 0x4000040C00000226#64) = .ok (.wr 0x40C 550) := by decide

/-- 30 R74: KIND 0b00, ARG 38. -/
theorem test_decode_carrier : decode (.sym 0b000000000000100110#18) = .ok (.carrier 38) := by decide

/-- 30 R74: KIND 0b01, ARG 550. -/
theorem test_decode_mark : decode (.sym 0b010000001000100110#18) = .ok (.mark 550) := by decide

/-- 30 R74: KIND 0b10, the idle sentinel. -/
theorem test_decode_space : decode (.sym 0b100000000000000000#18) = .ok (.space 0) := by decide

/-- 30 R79, 93 I12, and 30 R74: every constraint refused by its own name. -/
theorem test_decode_rejects :
    decode (.how 0x8000000400000000#64) = .error .howOp ∧ decode (.how 0xC000000400000000#64) = .error .howOp ∧
      decode (.how 0x0000080400000000#64) = .error .howZero ∧ decode (.how 0x6000000400000000#64) = .error .howZero ∧
      decode (.how 0x0000001200000000#64) = .error .howOff ∧ decode (.how 0x0000000400000001#64) = .error .howData ∧
      decode (.sym 0b110000000000000000#18) = .error .symKind := by decide

/-- 30 R79, the worked encodings, and 95 P1. -/
theorem test_encode :
    encode (.rd 0x004) = .how 0x0000000400000000#64 ∧ encode (.wr 0x000 1) = .how 0x4000000000000001#64 ∧
      encode (.wr 0x028 0x25) = .how 0x4000002800000025#64 ∧ encode (.encodeCmd 0xFFFFFF) = .cmd 0xFFFFFF01#32 ∧
      encode (.mark 4400) = .sym 0b010001000100110000#18 := by decide

/-- The words as the opcode table numbers them: 18-bit symbols, command words, host-operation words. -/
theorem test_decodeTableWord :
    decodeTableWord 24 0x20640 = some (.space 1600) ∧ decodeTableWord 24 0x40000 = none ∧
      decodeTableWord 32 0x7F = some (.reservedCmd 0x7F 0) ∧
      decodeTableWord 64 0x4000040C00000226 = some (.wr 0x40C 550) := by decide

/-! ### The host-program notation -/

/-- 30 R80 and 95 P1: lines of text and the words beside them. -/
theorem test_assemble :
    assemble "WR FRAME_LEN, 7 ; length\nENCODE\n\nWAITENC\nRD 0x048".toList =
      some [.how 0x4000000C00000007#64, .how 0x4000000000000001#64, .poll 0x004 0x1 0x0,
        .how 0x0000004800000000#64] := by decide

/-- 30 R80 and 95 P5: `LDFRAME` writes FRAME_LEN and then FRAME0 upward. -/
theorem test_assemble_ldframe :
    assemble "LDFRAME 0xF2, 0x0D, 3".toList =
      some [.how 0x4000000C00000003#64, .how 0x40000010000000F2#64, .how 0x400000140000000D#64,
        .how 0x4000001800000003#64] ∧
      assemble "LDFRAME".toList = none := by decide

/-- 30 R80: `LDCAP` writes CAP_COUNT and then CAP0 upward. -/
theorem test_assemble_ldcap :
    assemble "LDCAP 0, 4400".toList =
      some [.how 0x4000004000000002#64, .how 0x4000040000000000#64, .how 0x4000040400001130#64] := by decide

/-- 42 R141 and 95 V-C12 as they are written there; 30 R80 lists no register name with a leading zero. -/
theorem test_assemble_numbers :
    assemble "WR CAP5, 0x0001_0226\nWR CMD, 0xFFFF_FF01".toList =
      some [.how 0x4000041400010226#64, .how 0x40000000FFFFFF01#64] ∧
      parseReg "CAP255".toList = some (.cap 255) ∧ parseReg "FRAME0".toList = some (.frame 0) ∧
      parseReg "FRAME00".toList = none ∧ parseReg "CAP007".toList = none ∧ parseReg "CAP256".toList = none ∧
      parseNat "_1".toList = none ∧ parseNat "1_".toList = none ∧ parseNat "1__0".toList = none ∧
      parseNat "0x_1".toList = none := by decide

/-! ### The frames and their trains -/

/-- 00 R11. -/
def swing : List Byte := [0xF2, 0x0D, 0x01, 0xFE, 0x21, 0x04, 0x25]

/-- 95 S5, S6, 00 R13: the swing frame; the power frame of 23 °C with its computed checksum 0x07; the fixed trailers that
happen to equal the XOR of the bytes before them. -/
theorem test_frames :
    buildFrame 0 .swing = .ok swing ∧
      buildFrame 0 (.power 23 0 0 false) = .ok [0xF2, 0x0D, 0x03, 0xFC, 0x01, 0x06, 0x00, 0x00, 0x07] ∧
      buildFrame 0 (.power 31 0 0 false) = .error .outOfRange ∧ buildFrame 0 (.power 17 4 0 false) = .error .outOfRange ∧
      xorFold (highPowerFrame.take 9) = 0x08 ∧ xorFold (sleepFrame.take 9) = 0x0A ∧ xorFold (swing.take 6) = 0x25 ∧
      xorFold (upDownFrame.take 6) = 0x21 := by decide

/-- 95 V-E1: the pulses of byte 0xF2. -/
theorem test_byte_pulses :
    bytePulses 0xF2 =
      [.mark 550, .space 1600, .mark 550, .space 1600, .mark 550, .space 1600, .mark 550, .space 1600]
      ++ [.mark 550, .space 550, .mark 550, .space 550, .mark 550, .space 1600, .mark 550, .space 550] := by decide

/-- 95 V-E2 to V-E8, 70 R180: line times and symbol counts. -/
theorem test_line_times :
    lineTime (train swing) = 94050 ∧ lineTime (train upDownFrame) = 91950 ∧
      lineTime (train [0xF2, 0x0D, 0x03, 0xFC, 0x01, 0x06, 0x00, 0x00, 0x07]) = 111650 ∧
      lineTime (train highPowerFrame) = 118350 ∧ lineTime (train sleepFrame) = 120450 ∧
      lineTime (train (List.replicate 7 0x00)) = 70950 ∧ lineTime (train (List.replicate 10 0xFF)) = 181350 ∧
      (symbols swing).length = 117 ∧ (symbols highPowerFrame).length = 165 := by decide +kernel

/-- 95 P2: the capture SW, written out. -/
def swingCapture : List Dur :=
  [0, 4400, 4400, 550, 1600, 550, 1600, 550, 1600, 550, 1600, 550, 550, 550, 550, 550, 1600, 550, 550, 550, 550, 550, 550, 550]
  ++ [550, 550, 550, 550, 1600, 550, 1600, 550, 550, 550, 1600, 550, 550, 550, 550, 550, 550, 550, 550, 550, 550, 550, 550, 550]
  ++ [550, 550, 1600, 550, 1600, 550, 1600, 550, 1600, 550, 1600, 550, 1600, 550, 1600, 550, 1600, 550, 550, 550, 550, 550, 550, 550]
  ++ [1600, 550, 550, 550, 550, 550, 550, 550, 550, 550, 1600, 550, 550, 550, 550, 550, 550, 550, 550, 550, 550, 550, 1600, 550]
  ++ [550, 550, 550, 550, 550, 550, 550, 550, 1600, 550, 550, 550, 550, 550, 1600, 550, 550, 550, 1600, 550]

/-- 95 P5: the capture of the power train, written out. -/
def powerCapture : List Dur :=
  [0, 4400, 4400, 550, 1600, 550, 1600, 550, 1600, 550, 1600, 550, 550, 550, 550, 550, 1600, 550, 550, 550, 550, 550, 550, 550]
  ++ [550, 550, 550, 550, 1600, 550, 1600, 550, 550, 550, 1600, 550, 550, 550, 550, 550, 550, 550, 550, 550, 550, 550, 550, 550]
  ++ [1600, 550, 1600, 550, 1600, 550, 1600, 550, 1600, 550, 1600, 550, 1600, 550, 1600, 550, 550, 550, 550, 550, 550, 550, 550, 550]
  ++ [550, 550, 550, 550, 550, 550, 550, 550, 550, 550, 1600, 550, 550, 550, 550, 550, 550, 550, 550, 550, 550, 550, 1600, 550]
  ++ [1600, 550, 550, 550, 550, 550, 550, 550, 550, 550, 550, 550, 550, 550, 550, 550, 550, 550, 550, 550, 550, 550, 550, 550]
  ++ [550, 550, 550, 550, 550, 550, 550, 550, 550, 550, 550, 550, 550, 550, 550, 550, 550, 550, 550, 550, 550, 550, 1600, 550]
  ++ [1600, 550, 1600, 550]

/-- 95 P2, P5: the captures written out there are the captures of the trains. -/
theorem test_captures :
    capture (train swing) 0 = swingCapture ∧
      capture (train [0xF2, 0x0D, 0x03, 0xFC, 0x01, 0x06, 0x00, 0x00, 0x07]) 0 = powerCapture := by decide +kernel

/-! ### Matching, the gate and the decode -/

/-- 95 V-M1 to V-M17: the ends of the bands. -/
theorem test_bands :
    inBand 25 412 550 = false ∧ inBand 25 413 550 = true ∧ inBand 25 687 550 = true ∧ inBand 25 688 550 = false ∧
      inBand 25 1199 1600 = false ∧ inBand 25 1200 1600 = true ∧ inBand 25 2000 1600 = true ∧
      inBand 25 2001 1600 = false ∧ inBand 25 3299 4400 = false ∧ inBand 25 3300 4400 = true ∧
      inBand 25 5500 4400 = true ∧ inBand 25 5501 4400 = false ∧ inBand 0 550 550 = true ∧ inBand 0 551 550 = false ∧
      inBand 10 605 550 = true ∧ inBand 10 606 550 = false ∧ inBand 48 0 550 = false := by decide

/-- 95 V-K1 to V-K8. -/
theorem test_classify :
    classify 25 1600 = some true ∧ classify 25 550 = some false ∧ classify 25 1000 = none ∧ classify 25 688 = none ∧
      classify 25 1199 = none ∧ classify 48 814 = some false ∧ classify 48 815 = none ∧ classify 48 831 = none ∧
      classify 48 832 = some true := by decide

/-- 95 V-G1 to V-G16. -/
theorem test_gate :
    (∀ n : Fin 256, gate n.val ≠ none → n.val ∈ [115, 116, 147, 148, 163, 164]) ∧
      gate 115 = some 56 ∧ gate 116 = some 56 ∧ gate 147 = some 72 ∧ gate 148 = some 72 ∧ gate 163 = some 80 ∧
      gate 164 = some 80 := by decide +kernel

/-- 95 V-D1 to V-D13. -/
theorem test_decode_marks :
    decodePulses 25 swingCapture = .ok 56 0xF20D01FE ∧ decodePulses 25 (swingCapture.set 0 65535) = .ok 56 0xF20D01FE ∧
      decodePulses 25 (swingCapture.set 1 3299) = .fail .hdrMark 1 ∧
      decodePulses 25 (swingCapture.set 1 3300) = .ok 56 0xF20D01FE ∧
      decodePulses 25 (swingCapture.set 1 5501) = .fail .hdrMark 1 ∧
      decodePulses 25 (swingCapture.set 2 3299) = .fail .hdrSpace 2 ∧
      decodePulses 25 (swingCapture.set 2 5501) = .fail .hdrSpace 2 ∧
      decodePulses 25 (swingCapture.set 3 0) = .fail .bitMark 3 ∧
      decodePulses 25 (swingCapture.set 3 412) = .fail .bitMark 3 ∧
      decodePulses 25 (swingCapture.set 3 413) = .ok 56 0xF20D01FE ∧
      decodePulses 25 (swingCapture.set 3 688) = .fail .bitMark 3 := by decide +kernel

/-- 95 V-D14 to V-D31. -/
theorem test_decode_spaces :
    decodePulses 25 (swingCapture.set 4 1199) = .fail .bitSpace 4 ∧
      decodePulses 25 (swingCapture.set 4 2000) = .ok 56 0xF20D01FE ∧
      decodePulses 25 (swingCapture.set 4 2001) = .fail .bitSpace 4 ∧
      decodePulses 25 (swingCapture.set 4 687) = .ok 56 0x720D01FE ∧
      decodePulses 25 (swingCapture.set 65 0) = .fail .bitMark 65 ∧
      decodePulses 25 (swingCapture.set 66 1000) = .fail .bitSpace 66 ∧
      decodePulses 25 (swingCapture.set 67 0) = .ok 56 0xF20D01FE ∧
      decodePulses 25 (swingCapture.set 115 0) = .ok 56 0xF20D01FE ∧
      decodePulses 25 ((swingCapture.set 1 0).set 13 0) = .fail .hdrMark 1 ∧
      decodePulses 25 (swingCapture.drop 1) = .fail .hdrSpace 2 ∧
      decodePulses 25 (swingCapture ++ [0]) = .fail .len 0 ∧
      decodePulses 25 (swingCapture.take 115) = .ok 56 0xF20D01FE ∧
      decodePulses 25 ([0, 4400, 4400] ++ List.replicate 113 550) = .ok 56 0 ∧
      decodePulses 25 ([0, 4400, 4400] ++ (List.replicate 56 [550, 1600]).flatten ++ [550]) = .ok 56 0xFFFFFFFF := by
  decide +kernel

/-- 95 V-D32 to V-D35, V-D37. -/
theorem test_decode_tolerances :
    decodePulses 0 swingCapture = .ok 56 0xF20D01FE ∧ decodePulses 0 (swingCapture.set 3 551) = .fail .bitMark 3 ∧
      decodePulses 10 (swingCapture.set 3 605) = .ok 56 0xF20D01FE ∧
      decodePulses 10 (swingCapture.set 3 606) = .fail .bitMark 3 ∧
      decodePulses 25 powerCapture = .ok 72 0xF20D03FC := by decide +kernel

/-! ### One step -/

/-- A small state: right after reset, with every free value of the reset replaced by 0 and the default order of
the agents. -/
def blank : State := { State.reset with cap := Vector.replicate 256 0, emCarrier := 0, thereafter := none }

/-- `blank` with a host program. -/
def hosted (program : List HostLine) : State := { blank with program := program }

/-- `blank` with a frame in FRAME_LEN and FRAME0 upward, and a host program. -/
def framed (f : List Byte) (program : List HostLine) : State :=
  { hosted program with frameLen := BitVec.ofNat 4 f.length, frame := Vector.ofFn fun i => f.getD i 0 }

/-- `blank` with a capture in CAP_COUNT and CAP0 upward, and a host program. -/
def captured (p : List Dur) (program : List HostLine) : State :=
  { hosted program with capCount := BitVec.ofNat 8 p.length, cap := Vector.ofFn fun i => p.getD i 0 }

/-- `blank` with the swing train in flight, its symbol `i` offered to a ready emitter and the encoder to move. -/
def sending (i : Nat) : State :=
  { framed swing [] with
    encBusy := true, encSeq := (symbols swing).map symbolWord, encIdx := i
    sent := ((symbols swing).map symbolWord).take i, schedule := [.encoder] }

/-- What a view of the next state shows, if the step goes on. -/
def after {α : Type} (s : State) (view : State → α) : Option α :=
  match step s with
  | .next t => some (view t)
  | .fault _ => none
  | .refused _ => none

/-- Why a step refuses. -/
def refusal (s : State) : Option Refusal :=
  match step s with
  | .refused r => some r
  | .next _ => none
  | .fault _ => none

/-- 95 V-H10: NOP changes nothing. -/
theorem test_nop : step (framed swing [.cmd 0x00]) = .next (framed swing []) := rfl

/-- 95 V-H11: a reserved OPCODE changes no register, written by a WR to CMD. -/
theorem test_reserved :
    after (framed swing [lineWr 0x000 0x7F]) encStatusWord = some 0x0 ∧
      after (framed swing [lineWr 0x000 0x7F]) decStatusWord = some 0x0 ∧
      after (framed swing [lineWr 0x000 0x7F]) (busRead 0x010) = some 0xF2 := by decide +kernel

/-- 95 V-C1, V-C3, V-C4, V-C12: ENC_STATUS after an ENCODE, by a command word and by a WR to CMD. -/
theorem test_encode_status :
    after (hosted [.cmd 0x01]) encStatusWord = some 0x4 ∧
      after (framed swing [.cmd 0x01]) encStatusWord = some 0x1 ∧
      after (framed (List.replicate 8 0) [.cmd 0x01]) encStatusWord = some 0x4 ∧
      after (framed swing [lineWr 0x000 0xFFFFFF01]) encStatusWord = some 0x1 ∧
      after (framed swing [.cmd 0x01]) (fun t => t.encSeq.take 5) =
        some [0b000000000000100110, 0b010001000100110000, 0b100001000100110000, 0b010000001000100110,
          0b100000011001000000] := by decide +kernel

/-- 95 V-C8 to V-C11: an ENCODE while busy, and after a completed train. -/
theorem test_encode_refusals :
    after { sending 3 with program := [.cmd 0x01], schedule := [.host] } encStatusWord = some 0x9 ∧
      after { sending 3 with program := [.cmd 0x01], schedule := [.host], frameLen := 3 } encStatusWord = some 0x9 ∧
      after { hosted [.cmd 0x01] with encDone := true, frameLen := 4 } encStatusWord = some 0x6 ∧
      after { hosted [.cmd 0x01] with encDone := true, frameLen := 7 } encStatusWord = some 0x1 := by decide +kernel

/-- 95 V-D1, P2: DECODE of the clean swing capture. -/
theorem test_decode_clean :
    after (captured swingCapture [.cmd 0x02]) decStatusWord = some 0x3 ∧
      after (captured swingCapture [.cmd 0x02]) (busRead 0x044) = some 56 ∧
      after (captured swingCapture [.cmd 0x02]) (busRead 0x048) = some 0xF20D01FE := by decide +kernel

/-- 95 V-D7, V-D9, V-D20, V-D26, V-D28: DEC_STATUS after a failed DECODE. -/
theorem test_decode_failed :
    after (captured (swingCapture.set 2 3299) [.cmd 0x02]) decStatusWord = some 0x20D ∧
      after (captured (swingCapture.set 3 0) [.cmd 0x02]) decStatusWord = some 0x311 ∧
      after (captured (swingCapture.set 4 412) [.cmd 0x02]) decStatusWord = some 0x415 ∧
      after (captured ((swingCapture.set 1 0).set 13 0) [.cmd 0x02]) decStatusWord = some 0x109 ∧
      after (captured (swingCapture ++ [0]) [.cmd 0x02]) decStatusWord = some 0x5 := by decide +kernel

/-- 95 V-H4 to V-H7: a write keeps the field's bits. -/
theorem test_wr_fields :
    after (hosted [lineWr 0x00C 0x17]) (busRead 0x00C) = some 0x7 ∧
      after (hosted [lineWr 0x010 0x1F2]) (busRead 0x010) = some 0xF2 ∧
      after (hosted [lineWr 0x414 0x00010226]) (busRead 0x414) = some 0x226 ∧
      after (hosted [lineWr 0x040 0x174]) (busRead 0x040) = some 0x74 := by decide +kernel

/-- 95 V-H8, V-H9: writes to a read-only register and to an unmapped offset are ignored. -/
theorem test_wr_ignored :
    after { hosted [lineWr 0x048 0x1234] with resValue := 9 } (busRead 0x048) = some 9 ∧
      after (hosted [lineWr 0x050 5]) (busRead 0x050) = some 0 := by decide +kernel

/-- 95 V-H1 to V-H3 and P2: what RD returns to the host. -/
theorem test_rd :
    after (hosted [lineRd 0x008]) State.busData = some 0x0 ∧
      after { hosted [lineRd 0x000] with busData := 7 } State.busData = some 0x0 ∧
      after { hosted [lineRd 0x004] with encDone := true, encErr := .busy } State.busData = some 0xA ∧
      after { hosted [lineRd 0x044] with resBits := 72 } State.busData = some 0x48 := by decide +kernel

/-- 95 V-H12, 93 I12: refused accesses and a refused word. -/
theorem test_refused :
    refusal (hosted [.access ⟨false, .w16, 0x010, 0⟩]) = some .narrowAccess ∧
      refusal (hosted [.access ⟨false, .w32, 0x012, 0⟩]) = some .misalignedAccess ∧
      refusal (hosted [.how 0x0000001200000000#64]) = some (.inadmissible .howOff) := by decide +kernel

/-- 30 R76: CARRIER sets the carrier, leaves the line, and the emitter is ready at once. -/
theorem test_carrier :
    after (sending 0) State.emCarrier = some 38 ∧ after (sending 0) State.emLine = some .off ∧
      after (sending 0) symReady = some true ∧ after (sending 0) State.encIdx = some 1 := by decide +kernel

/-- 30 R76: MARK drives the line modulated for its ARG; 95 V-E2: the header mark is the second symbol. -/
theorem test_mark :
    after (sending 1) State.emLine = some .modulated ∧ after (sending 1) State.emLeft = some 4400 ∧
      after (sending 1) symReady = some false := by decide +kernel

/-- 30 R76, 40 R95, 95 V-C13: the sentinel leaves the line off and completes the train. -/
theorem test_space :
    after (sending 116) State.emLine = some .off ∧ after (sending 116) State.emLeft = some 0 ∧
      after (sending 116) encStatusWord = some 0x2 ∧ after (sending 116) (fun t => t.sent.length) = some 117 := by
  decide +kernel

/-- 30 R75: no hand-over while the emitter is not ready; 93 I5: an offered word of KIND 0b11 is a fault. -/
theorem test_handover_needs_ready :
    after { sending 5 with emLeft := 1 } State.encIdx = some 5 ∧
      step { sending 0 with encSeq := [0b110000000000000000] } = .fault .reservedSymbol := by
  exact ⟨by decide +kernel, rfl⟩

/-- 70 R171: reset in the middle of a train. -/
theorem test_reset_abandons_train :
    after { sending 5 with schedule := [.reset], emLine := .modulated } encStatusWord = some 0x0 ∧
      after { sending 5 with schedule := [.reset], emLine := .modulated } State.emLine = some .off ∧
      after { sending 5 with schedule := [.reset] } (fun t => t.sent.length) = some 5 := by decide +kernel

/-- 42 R145: POLL moves on when the masked result equals the value and repeats otherwise. -/
theorem test_poll :
    after { hosted [lineWaitenc] with schedule := [.host] } (fun t => t.program.length) = some 0 ∧
      after { sending 5 with program := [lineWaitenc], schedule := [.host] } (fun t => t.program.length) = some 1 := by
  decide +kernel

/-- The host's two probes: the very next step runs the placed word. -/
theorem test_withFetchWord :
    after (State.withFetchWord blank 24 0x101E8) State.emLeft = some 488 ∧
      after (State.withFetchWord blank 32 0x01) encStatusWord = some 0x4 ∧
      after (State.withFetchWord blank 64 0x4000000C00000007) (busRead 0x00C) = some 7 := by decide +kernel

/-! ### Witnesses: the hypotheses of each statement can be met, clause by clause -/

theorem witness_DecodeAfterEncode :
    WellFormed (.reservedCmd 0x03 0) = true ∧ WellFormed (.reservedCmd 0xFF 0xFFFFFF) = true ∧
      WellFormed (.rd 0x000) = true ∧ WellFormed (.rd 0x7FC) = true ∧ WellFormed (.wr 0x7FC 0xFFFFFFFF) = true ∧
      WellFormed (.space 0xFFFF) = true := by decide

theorem witness_EncodeAfterDecode :
    decode (.cmd 0xFFFFFF03#32) = .ok (.reservedCmd 0x03 0xFFFFFF) ∧
      decode (.how 0x400007FCFFFFFFFF#64) = .ok (.wr 0x7FC 0xFFFFFFFF) ∧
      decode (.sym 0x2FFFF#18) = .ok (.space 0xFFFF) := by decide

/-- The first two clauses, and each way to be refused. -/
theorem witness_HostOperationWords :
    (∀ w ∈ [0x0000000000000000#64, 0x000007FC00000000#64],
      w.toNat / 2 ^ 62 = 0 ∧ w.toNat / 2 ^ 43 % 2 ^ 19 = 0 ∧ w.toNat / 2 ^ 32 % 2 ^ 11 % 4 = 0 ∧ w.toNat % 2 ^ 32 = 0) ∧
    (∀ w ∈ [0x4000000000000000#64, 0x400007FCFFFFFFFF#64],
      w.toNat / 2 ^ 62 = 1 ∧ w.toNat / 2 ^ 43 % 2 ^ 19 = 0 ∧ w.toNat / 2 ^ 32 % 2 ^ 11 % 4 = 0) ∧
    2 ≤ (0x8000000000000000#64).toNat / 2 ^ 62 ∧
    (0x0000080000000000#64).toNat / 2 ^ 43 % 2 ^ 19 ≠ 0 ∧
    (0x0000000100000000#64).toNat / 2 ^ 32 % 2 ^ 11 % 4 ≠ 0 ∧
    ((0x0000000000000001#64).toNat / 2 ^ 62 = 0 ∧ (0x0000000000000001#64).toNat % 2 ^ 32 ≠ 0) ∧
    (nextTurn (hosted [.how 0x8000000000000000#64]) = .host ∧
      (hosted [.how 0x8000000000000000#64]).program = .how 0x8000000000000000#64 :: []) :=
  ⟨by simp, by simp, by simp, by simp, by simp, by simp, rfl, rfl⟩

theorem witness_SymbolKinds :
    (0x0FFFF#18).toNat / 2 ^ 16 = 0 ∧ (0x10000#18).toNat / 2 ^ 16 = 1 ∧ (0x2FFFF#18).toNat / 2 ^ 16 = 2 ∧
      (0x30000#18).toNat / 2 ^ 16 = 3 := by decide

theorem witness_TableRowsAreTheDecoder :
    decode (.cmd 0x7F#32) = .ok (.reservedCmd 0x7F 0) ∧
      (∀ r ∈ opcodeTable, r.mnemonic ≠ "RESERVED_CMD" →
        ∃ f ∈ ([.cmd 0xFFFFFF00, .cmd 0x01, .cmd 0x02, .how 0x000007FC00000000, .how 0x400007FCFFFFFFFF, .sym 0x00026,
          .sym 0x1FFFF, .sym 0x20000] : List InstrWord),
          wordWidth f = r.width ∧ wordBits f &&& r.mask = r.pattern) := by decide

theorem witness_StepRunsDecodedInstruction :
    (nextTurn (hosted [.how 0x0000000400000000#64]) = .host ∧
      (hosted [.how 0x0000000400000000#64]).program = .how 0x0000000400000000#64 :: [] ∧
      decode (.how 0x0000000400000000#64) = .ok (.rd 0x004)) ∧
    (nextTurn (hosted [.cmd 0x02]) = .host ∧ (hosted [.cmd 0x02]).program = .cmd 0x02 :: [] ∧
      decode (.cmd 0x02) = .ok (.decodeCmd 0)) ∧
    (nextTurn (sending 116) = .encoder ∧ (sending 116).encBusy = true ∧ (sending 116).emLeft = 0 ∧
      (sending 116).encSeq[(sending 116).encIdx]? = some 0x20000#18 ∧ decode (.sym 0x20000) = .ok (.space 0)) := by
  decide

theorem witness_PlacedWordRunsNext :
    decode (.how 0x4000000000000001#64) = .ok (.wr 0x000 1) ∧ decode (.cmd 0x01#32) = .ok (.encodeCmd 0) ∧
      decode (.sym 0x10226#18) = .ok (.mark 550) := by decide

theorem witness_RegisterMap : regAt 0x7FC = some (.cap 255) ∧ (0x034 : Off) = regOffset (.frame 9) := by decide

/-- Both ends of each range of offsets, an offset of no register, and a narrow access. -/
theorem witness_RdReturnsTheRegister :
    (0x000 : Off).toNat % 4 = 0 ∧ (0x7FC : Off).toNat % 4 = 0 ∧
      (0x010 : Off).toNat = 0x010 + 4 * (0 : Fin 10).val ∧ (0x034 : Off).toNat = 0x010 + 4 * (9 : Fin 10).val ∧
      (0x400 : Off).toNat = 0x400 + 4 * (0 : Fin 256).val ∧ (0x7FC : Off).toNat = 0x400 + 4 * (255 : Fin 256).val ∧
      (0x038 ≤ (0x038 : Off).toNat ∧ (0x03C : Off).toNat ≤ 0x03C) ∧
      (0x04C ≤ (0x04C : Off).toNat ∧ (0x3FC : Off).toNat ≤ 0x3FC) ∧
      (0x012 : Off).toNat % 4 ≠ 0 ∧ (⟨false, .w16, 0x010, 0⟩ : Access).width ≠ .w32 := by decide

theorem witness_WrStoresTheField :
    (0x034 : Off).toNat = 0x010 + 4 * (9 : Fin 10).val ∧ (0x7FC : Off).toNat = 0x400 + 4 * (255 : Fin 256).val ∧
      ((0x3FC : Off).toNat % 4 = 0 ∧ 0x04C ≤ (0x3FC : Off).toNat ∧ (0x3FC : Off).toNat ≤ 0x3FC) ∧
      ((0x038 : Off).toNat % 4 = 0 ∧ 0x038 ≤ (0x038 : Off).toNat ∧ (0x038 : Off).toNat ≤ 0x03C) ∧
      (0x7FF : Off).toNat % 4 ≠ 0 ∧
      ((⟨true, .w8, 0x010, 0⟩ : Access).write = true ∧ (⟨true, .w8, 0x010, 0⟩ : Access).width ≠ .w32) := by decide

theorem witness_OnlyAlignedWordAccesses :
    (∀ a ∈ ([⟨false, .w8, 0x010, 0⟩, ⟨true, .w16, 0x7FC, 0⟩, ⟨false, .w32, 0x012, 0⟩, ⟨true, .w32, 0x7FC, 5⟩,
      ⟨false, .w32, 0x000, 0⟩] : List Access),
      nextTurn (hosted [.access a]) = .host ∧ (hosted [.access a]).program = .access a :: []) ∧
    (0x012 : Off).toNat % 4 ≠ 0 ∧ (0x7FC : Off).toNat % 4 = 0 := by decide

theorem witness_ReadAfterWrite :
    Reg.cap 255 ≠ .cmd ∧ Reg.frameLen ≠ .cmd ∧ Reg.frame 9 ≠ Reg.cap 255 := by decide

theorem witness_ReadsHaveNoSideEffects : offAligned 0x000 = true ∧ offAligned 0x7FC = true := by decide

theorem witness_WrFrame :
    offAligned 0x7FC = true ∧ (0x7FC : Off) ≠ regOffset .cmd ∧ regOffset (.cap 254) ≠ 0x7FC := by decide

theorem witness_NopAndReservedChangeNothing :
    (0xFFFFFF00#32).toNat % 256 = 0 ∧ 3 ≤ (0x00000003#32).toNat % 256 ∧ 3 ≤ (0xFFFFFFFF#32).toNat % 256 := by decide

/-- An admissible byte position: the first bit and the last one of the swing frame. -/
theorem witness_SymbolSequence :
    ((0 : Nat) < 8 ∧ swing[0]? = some 0xF2) ∧ ((7 : Nat) < 8 ∧ swing[6]? = some 0x25) := by decide

theorem witness_EncodeCommand :
    (∀ f ∈ [swing, List.replicate 9 0, List.replicate 10 0xFF],
      (framed f []).encBusy = false ∧ (framed f []).frameLen.toNat ∈ [7, 9, 10] ∧
        f.length = (framed f []).frameLen.toNat ∧ ∀ j, j < f.length → f[j]? = (framed f []).frame[j]?) ∧
    (∀ f ∈ [[], List.replicate 8 0, List.replicate 15 0],
      (framed f []).encBusy = false ∧ (framed f []).frameLen.toNat ∉ [7, 9, 10]) ∧
    (sending 0).encBusy = true ∧ (0xFFFFFF01#32).toNat % 256 = 1 := by decide

theorem witness_EncoderHandover :
    (nextTurn (sending 0) = .encoder ∧ (sending 0).encBusy = true ∧ (sending 0).emLeft = 0 ∧
      (sending 0).encSeq[(sending 0).encIdx]? = some (symbolWord (.carrier 38))) ∧
    (nextTurn (sending 116) = .encoder ∧ (sending 116).encBusy = true ∧ (sending 116).emLeft = 0 ∧
      (sending 116).encSeq[(sending 116).encIdx]? = some (symbolWord (.space 0))) ∧
    (nextTurn { blank with schedule := [.encoder] } = .encoder ∧ blank.encBusy = false) ∧
    (nextTurn { sending 3 with emLeft := 1 } = .encoder ∧ { sending 3 with emLeft := 1 }.emLeft ≠ 0) := by decide

/-- A train in the middle and at its last symbol, with the 38 kHz carrier set. -/
def sendingAt (i : Nat) : State := { sending i with emCarrier := 38 }

/-- The invariant holds with a train at its last symbol. -/
theorem sendingAt_inv : (sendingAt 116).Inv where
  train _ := ⟨swing, by decide, rfl, by decide⟩
  handed _ := ⟨[], rfl⟩
  busyNotDone _ := rfl
  idleLine h := by rcases h with h | h <;> cases h
  carrierSet _ _ := rfl
  leftBound := by decide
  undecoded _ := ⟨rfl, rfl, rfl, rfl, rfl⟩
  decoded h := by cases h
  mismatched h := by cases h

theorem witness_CompletionPassesTheSentinel :
    (sendingAt 116).Inv ∧ nextTurn (sendingAt 116) = .encoder ∧ (sendingAt 116).encBusy = true ∧
      ∃ t, step (sendingAt 116) = .next t ∧ t.encBusy = false := ⟨sendingAt_inv, rfl, rfl, _, rfl, by decide⟩

/-- The train held, moved on by one symbol, and completed. -/
theorem witness_NoCancellation :
    (∃ t, { sending 3 with emLeft := 9 }.encBusy = true ∧ nextTurn { sending 3 with emLeft := 9 } ≠ .reset ∧
      step { sending 3 with emLeft := 9 } = .next t ∧ t.encIdx = 3) ∧
    (∃ t, nextTurn (sending 3) ≠ .reset ∧ step (sending 3) = .next t ∧ t.encIdx = 4 ∧ t.encBusy = true) ∧
    (∃ t, nextTurn (sending 116) ≠ .reset ∧ step (sending 116) = .next t ∧ t.encBusy = false) :=
  ⟨⟨_, rfl, by decide, rfl, by decide⟩, ⟨_, by decide, rfl, by decide, by decide⟩, ⟨_, by decide, rfl, by decide⟩⟩

theorem witness_OfferedSymbolIsHeld :
    (∃ t, symValid { sending 3 with schedule := [.host] } = true ∧
      nextTurn { sending 3 with schedule := [.host] } ≠ .reset ∧
      step { sending 3 with schedule := [.host] } = .next t) ∧
    (∃ t, symValid (sending 116) = true ∧ nextTurn (sending 116) ≠ .reset ∧ step (sending 116) = .next t) :=
  ⟨⟨_, rfl, by decide, rfl⟩, ⟨_, rfl, by decide, rfl⟩⟩

theorem witness_FairTrainCompletes :
    LegalFrame swing ∧ (sending 0).encBusy = true ∧ (sending 0).encDone = false ∧
      (sending 0).encSeq = (symbols swing).map symbolWord ∧ (sending 0).encIdx = 0 ∧ (sending 0).emLeft < 2 ^ 16 ∧
      { sending 0 with schedule := fairTurns (16 * swing.length + 5) }.schedule =
        fairTurns (16 * swing.length + 5) ++ [] ∧
      117 ≤ 16 * swing.length + 5 :=
  ⟨by decide, rfl, rfl, rfl, rfl, by decide, by simp, by decide⟩

theorem witness_UnreadyEmitterHangs :
    (∃ t, { sending 116 with emLeft := 1 }.encBusy = true ∧ { sending 116 with emLeft := 1 }.emLeft ≠ 0 ∧
      nextTurn { sending 116 with emLeft := 1 } = .encoder ∧ step { sending 116 with emLeft := 1 } = .next t) ∧
    (∃ t, nextTurn { sending 116 with emLeft := 1, schedule := [.host], program := [.cmd 0x01] } = .host ∧
      step { sending 116 with emLeft := 1, schedule := [.host], program := [.cmd 0x01] } = .next t) :=
  ⟨⟨_, rfl, by decide, rfl, rfl⟩, ⟨_, rfl, rfl⟩⟩

theorem witness_EncodeRacesTheLastHandover :
    (sending 116).encBusy = true ∧ (sending 116).encIdx + 1 = (sending 116).encSeq.length ∧
      (sending 116).encSeq[(sending 116).encIdx]? = some (symbolWord (.space 0)) ∧ (sending 116).emLeft = 0 ∧
      (sending 116).frameLen.toNat ∈ [7, 9, 10] ∧
      { sending 116 with program := [.cmd 0x01] }.program = .cmd 0x01 :: [] ∧ (0x01#32).toNat % 256 = 1 := by decide

theorem witness_SpaceClassification :
    (0 ≤ 48 ∧ inBand 0 1600 1600 = true ∧ inBand 0 550 550 = true) ∧
      (48 ≤ 48 ∧ inBand 48 832 1600 = true ∧ inBand 48 814 550 = true ∧ inBand 48 815 1600 = false ∧
        inBand 48 831 550 = false) := by decide

theorem witness_LengthGate :
    (List.replicate 114 (0 : Dur)).length ∉ [115, 116, 147, 148, 163, 164] ∧
      ([] : List Dur).length ∉ [115, 116, 147, 148, 163, 164] ∧
      (List.replicate 165 (0 : Dur)).length ∉ [115, 116, 147, 148, 163, 164] := by decide

/-- Both sides of the equivalence are met. -/
theorem witness_DecodeSucceedsExactly :
    decodePulses 25 swingCapture = .ok 56 0xF20D01FE ∧ gate swingCapture.length = some (56 : BitVec 7).toNat ∧
      inBand 25 (durAt swingCapture 1) 4400 = true ∧ inBand 25 (durAt swingCapture 2) 4400 = true ∧
      ∀ i < 32, inBand 25 (durAt swingCapture (3 + 2 * i)) 550 = true ∧
        classify 25 (durAt swingCapture (4 + 2 * i)) = some ((0xF20D01FE#32).getLsbD (31 - i)) := by decide +kernel

/-- Every clause, with the first and the last bit failing. -/
theorem witness_FirstFailureIsReported :
    (∀ p ∈ [swingCapture, swingCapture.set 1 0, swingCapture.set 2 0, swingCapture.set 3 0, swingCapture.set 66 1000],
      gate p.length ≠ none) ∧
    gate (swingCapture ++ [0]).length = none ∧
    inBand 25 (durAt (swingCapture.set 1 0) 1) 4400 = false ∧
    (inBand 25 (durAt (swingCapture.set 2 0) 1) 4400 = true ∧
      inBand 25 (durAt (swingCapture.set 2 0) 2) 4400 = false) ∧
    inBand 25 (durAt (swingCapture.set 3 0) (3 + 2 * 0)) 550 = false ∧
    ((∀ j < 31, inBand 25 (durAt (swingCapture.set 66 1000) (3 + 2 * j)) 550 = true ∧
        classify 25 (durAt (swingCapture.set 66 1000) (4 + 2 * j)) ≠ none) ∧
      inBand 25 (durAt (swingCapture.set 66 1000) (3 + 2 * 31)) 550 = true ∧
      classify 25 (durAt (swingCapture.set 66 1000) (4 + 2 * 31)) = none) := by decide +kernel

theorem witness_DecodeReadsElements1To66 :
    ((swingCapture.set 0 9).set 67 0).length = swingCapture.length ∧
      ∀ i < 67, 1 ≤ i → ((swingCapture.set 0 9).set 67 0)[i]? = swingCapture[i]? := by decide +kernel

theorem witness_RoundTrip :
    LegalFrame (0xF2 :: 0x0D :: 0x01 :: 0xFE :: [0x21, 0x04, 0x25]) ∧
      LegalFrame (0xFF :: 0xFF :: 0xFF :: 0xFF :: List.replicate 6 0xFF) ∧ 48 ≤ 48 ∧ 0 ≤ 48 := by decide

theorem witness_RoundTripThroughRegisters :
    LegalFrame (0xF2 :: 0x0D :: 0x01 :: 0xFE :: [0x21, 0x04, 0x25]) ∧
      (captured swingCapture []).capCount.toNat = 16 * (4 + [0x21, 0x04, 0x25].length) + 4 ∧
      ∀ i, i < 16 * (4 + [0x21, 0x04, 0x25].length) + 4 →
        (captured swingCapture []).cap[i]? =
          (capture (train (0xF2 :: 0x0D :: 0x01 :: 0xFE :: [0x21, 0x04, 0x25])) 0)[i]? := by decide +kernel

theorem witness_DecodeCommand :
    (∀ p ∈ [swingCapture, swingCapture.set 3 0, []],
      p.length = (captured p []).capCount.toNat ∧ ∀ i, i < p.length → p[i]? = (captured p []).cap[i]?) ∧
    decodePulses blank.tolPct.val swingCapture = .ok 56 0xF20D01FE ∧
    decodePulses blank.tolPct.val (swingCapture.set 3 0) = .fail .bitMark 3 ∧
    decodePulses blank.tolPct.val [] = .fail .len 0 ∧ (0xFFFFFF02#32).toNat % 256 = 2 := by decide +kernel

theorem witness_DecodeIsAFunctionOfTheCapture :
    (captured swingCapture []).capCount = { captured swingCapture [] with encBusy := true, frameLen := 9 }.capCount ∧
      (captured swingCapture []).cap = { captured swingCapture [] with encBusy := true, frameLen := 9 }.cap ∧
      (captured swingCapture []).tolPct = { captured swingCapture [] with encBusy := true, frameLen := 9 }.tolPct ∧
      after (captured swingCapture [.cmd 0x02]) State.decOk = some true := by
  exact ⟨rfl, rfl, rfl, by decide +kernel⟩

theorem witness_EmitterTime :
    nextTurn { blank with emLeft := 550, schedule := [.elapse 549] } = .elapse 549 ∧ 549 < 550 ∧
      nextTurn { blank with emLeft := 550, schedule := [.elapse 550] } = .elapse 550 ∧ 550 ≤ 550 ∧
      nextTurn { blank with schedule := [.elapse 0] } = .elapse 0 ∧ blank.emLeft = 0 := by decide

theorem witness_PollRepeatsItsRead :
    (nextTurn { hosted [lineWaitenc] with schedule := [.host] } = .host ∧
      (hosted [lineWaitenc]).program = .poll 0x004 0x1 0x0 :: [] ∧ (0x004 : Off).toNat % 4 = 0) ∧
    (busRead 0x004 (hosted []) &&& 0x1 = 0x0 ∧ busRead 0x004 (sending 3) &&& 0x1 ≠ 0x0) := by decide +kernel

theorem witness_OnlyWritesChangeOperands :
    ∃ t, step (hosted [lineWr 0x00C 7]) = .next t ∧ nextTurn (hosted [lineWr 0x00C 7]) ≠ .reset ∧
      t.frameLen ≠ (hosted [lineWr 0x00C 7]).frameLen := ⟨_, rfl, by decide, by decide⟩

/-- ENC_STATUS changed by an ENCODE and by a completion; DEC_STATUS changed by a DECODE. -/
theorem witness_StatusWriters :
    (∃ t, step (hosted [.cmd 0x01]) = .next t ∧ nextTurn (hosted [.cmd 0x01]) ≠ .reset ∧
      encStatusWord t ≠ encStatusWord (hosted [.cmd 0x01])) ∧
    (∃ t, step (sending 116) = .next t ∧ nextTurn (sending 116) ≠ .reset ∧
      encStatusWord t ≠ encStatusWord (sending 116)) ∧
    (∃ t, step (hosted [.cmd 0x02]) = .next t ∧ nextTurn (hosted [.cmd 0x02]) ≠ .reset ∧
      decStatusWord t ≠ decStatusWord (hosted [.cmd 0x02])) :=
  ⟨⟨_, rfl, by decide, by decide⟩, ⟨_, rfl, by decide, by decide +kernel⟩, ⟨_, rfl, by decide, by decide⟩⟩

theorem witness_DecodeDoneStaysUntilReset :
    (∃ t, { hosted [.cmd 0x01] with decDone := true }.decDone = true ∧
      step { hosted [.cmd 0x01] with decDone := true } = .next t ∧
      nextTurn { hosted [.cmd 0x01] with decDone := true } ≠ .reset) ∧
    (∃ t, (hosted [.cmd 0x02]).decDone = false ∧ step (hosted [.cmd 0x02]) = .next t ∧ t.decDone = true) :=
  ⟨⟨_, rfl, rfl, by decide⟩, ⟨_, rfl, rfl, by decide⟩⟩

theorem witness_ToleranceIsFixed : ∃ t, step { blank with tolPct := 48, schedule := [.reset] } = .next t := ⟨_, rfl⟩

theorem witness_ResetValues : nextTurn { sending 5 with schedule := [.reset] } = .reset := rfl

theorem witness_StepKeepsInvariant : (sendingAt 116).Inv ∧ ∃ t, step (sendingAt 116) = .next t :=
  ⟨sendingAt_inv, _, rfl⟩

theorem witness_InvariantStatesAreSafe : (sendingAt 116).Inv := sendingAt_inv

/-- A run from reset that reaches a state with the line modulated: FRAME_LEN 7, ENCODE, and two hand-overs. -/
theorem witness_RunsFromResetAreSafe :
    ∃ t : State, core.run 4 (State.loaded [lineWr 0x00C 7, .cmd 0x01] [.host, .host, .encoder, .encoder]) = .next t ∧
      t.emLine = .modulated := ⟨_, rfl, by decide⟩

/-- The host alone moves for ever and polls; the encoder alone moves for ever and the emitter is never ready. -/
theorem witness_UnfairRunsHang :
    ({ sending 3 with schedule := [], thereafter := some .host, program := [lineWaitenc] }.encBusy = true ∧
      { sending 3 with schedule := [], thereafter := some .host, program := [lineWaitenc] }.schedule = [] ∧
      { sending 3 with schedule := [], thereafter := some .host, program := [lineWaitenc] }.thereafter = some .host ∧
      { sending 3 with schedule := [], thereafter := some .host, program := [lineWaitenc] }.program =
        .poll 0x004 0x1 0x0 :: []) ∧
    ({ sending 3 with schedule := [], thereafter := some .encoder, emLeft := 1 }.encBusy = true ∧
      { sending 3 with schedule := [], thereafter := some .encoder, emLeft := 1 }.schedule = [] ∧
      { sending 3 with schedule := [], thereafter := some .encoder, emLeft := 1 }.thereafter = some .encoder ∧
      { sending 3 with schedule := [], thereafter := some .encoder, emLeft := 1 }.emLeft ≠ 0) := by
  exact ⟨⟨rfl, rfl, rfl, rfl⟩, rfl, rfl, rfl, by decide⟩

theorem witness_PowerFrameChecksum :
    (17 ≤ 17 ∧ 17 ≤ 30 ∧ 7 ∈ [0, 1, 2, 3, 7] ∧ 6 ∈ [0, 2, 3, 4, 5, 6]) ∧
      (17 ≤ 30 ∧ 30 ≤ 30 ∧ 0 ∈ [0, 1, 2, 3, 7] ∧ 0 ∈ [0, 2, 3, 4, 5, 6]) := by decide

end Sys2Proof.Tests
end

