-- ==== Sys2Proof/Proofs/StateWriters.lean ====
section
/-! PROOFS. Who writes the status and result registers (10 R39), and what a reset leaves (10 R42). -/

namespace Sys2Proof.Machine

/-! ### ENC_STATUS -/

/-- Of what the host can do, only an ENCODE writes ENC_STATUS. -/
theorem HostEffect.encStatusWord_eq {s t : State} {p : List HostLine} (he : HostEffect s p t) :
    encStatusWord t = encStatusWord s ∨ RunsCommand s 0x01#8 := by
  cases he with
  | encode h => exact .inr h
  | nothing | decode _ | store _ _ _ _ | read _ => exact .inl (by simp [encStatusWord, afterFetch])

/-- A hand-over writes ENC_STATUS only where it passes the train's last symbol, and then BUSY falls (40 R95). -/
theorem handover_encStatusWord_eq (y : Symbol) (s : State) :
    encStatusWord (emitterAccept y (advanceEncoder s)) = encStatusWord s ∨
      (s.encIdx + 1 = s.encSeq.length ∧ (emitterAccept y (advanceEncoder s)).encBusy = false) := by
  rcases advanceEncoder_cases s with ⟨hlast, ha⟩ | ⟨-, ha⟩
  · exact .inr ⟨hlast, by simp [ha]⟩
  · exact .inl (by simp [ha, encStatusWord])

/-- A step other than a reset leaves ENC_STATUS as it was, or it is one of the writers of 10 R39. -/
theorem step_encStatusWord_eq {s t : State} (h : step s = .next t) (hn : nextTurn s ≠ .reset) :
    encStatusWord t = encStatusWord s ∨ RunsCommand s 0x01#8 ∨
      (nextTurn s = .encoder ∧ s.encIdx + 1 = s.encSeq.length ∧ t.encBusy = false) := by
  rcases step_cases h with ⟨-, p, he⟩ | ⟨hturn, ⟨-, rfl⟩ | ⟨-, -, y, -, rfl⟩⟩ | ⟨us, -, rfl⟩ | ⟨hreset, -⟩
  · exact he.encStatusWord_eq.imp_right .inl
  · exact .inl rfl
  · exact (handover_encStatusWord_eq y (popSchedule s)).imp_right fun hlast => .inr ⟨hturn, hlast⟩
  · exact .inl (by simp [encStatusWord])
  · exact absurd hreset hn

/-! ### DEC_STATUS, RES_BITS and RES_VALUE -/

/-- What a DECODE writes, DEC_STATUS and the result registers (41 R117), stands in `t` as in `s`. -/
structure SameDecodeRegs (s t : State) : Prop where
  status : decStatusWord t = decStatusWord s
  bits : t.resBits = s.resBits
  value : t.resValue = s.resValue

/-- Of what the host can do, only a DECODE writes DEC_STATUS, RES_BITS or RES_VALUE. -/
theorem HostEffect.sameDecodeRegs {s t : State} {p : List HostLine} (he : HostEffect s p t) :
    SameDecodeRegs s t ∨ RunsCommand s 0x02#8 := by
  cases he with
  | decode h => exact .inr h
  | nothing | encode _ | store _ _ _ _ | read _ =>
    exact .inl ⟨by simp [decStatusWord, afterFetch], by simp [afterFetch], by simp [afterFetch]⟩

/-- A step other than a reset leaves DEC_STATUS and the result registers as they were, or it runs a DECODE. -/
theorem step_sameDecodeRegs {s t : State} (h : step s = .next t) (hn : nextTurn s ≠ .reset) :
    SameDecodeRegs s t ∨ RunsCommand s 0x02#8 := by
  rcases step_cases h with ⟨-, p, he⟩ | ⟨-, ⟨-, rfl⟩ | ⟨-, -, y, -, rfl⟩⟩ | ⟨us, -, rfl⟩ | ⟨hreset, -⟩
  · exact he.sameDecodeRegs
  · exact .inl ⟨rfl, rfl, rfl⟩
  · exact .inl ⟨by simp [decStatusWord], by simp, by simp⟩
  · exact .inl ⟨by simp [decStatusWord], by simp, by simp⟩
  · exact absurd hreset hn

/-! ### Reset -/

/-- A reset's turn always goes on (70 R170). -/
theorem step_reset {s : State} (hn : nextTurn s = .reset) : step s = .next (resetBlock (popSchedule s)) := by
  simp only [step, hn, takeTurn]

/-- A reset clears ENC_STATUS (10 R42). -/
@[simp] theorem resetBlock_encStatusWord (s : State) : encStatusWord (resetBlock s) = 0#32 := by
  simp [encStatusWord, encErrCode]

/-- A reset clears DEC_STATUS (10 R42). -/
@[simp] theorem resetBlock_decStatusWord (s : State) : decStatusWord (resetBlock s) = 0#32 := by
  simp [decStatusWord, decErrCode]

/-- A reset clears every byte of the frame (10 R42). -/
theorem resetBlock_frame_getElem (s : State) (i : Fin 10) : (resetBlock s).frame[i] = 0#8 := by simp

/-! ### The obligations -/

/-- Settles O43, by the cases of a step: ENC_STATUS changes only in an ENCODE or with the train's last symbol, the decoder's
registers only in a DECODE. -/
theorem statusWriters : Obligations.StatusWriters := by
  intro s t h hn
  refine ⟨fun hne => (step_encStatusWord_eq h hn).resolve_left hne, fun hne => ?_⟩
  refine (step_sameDecodeRegs h hn).resolve_left fun hsame => ?_
  rcases hne with hstatus | hbits | hvalue
  · exact hstatus hsame.status
  · exact hbits hsame.bits
  · exact hvalue hsame.value

/-- Settles O46: the step of a reset's turn is `resetBlock`, and each value is one that it writes or keeps. -/
theorem resetValues : Obligations.ResetValues := by
  intro s hn
  exact ⟨_, step_reset hn, resetBlock_encStatusWord _, resetBlock_decStatusWord _, resetBlock_frameLen _,
    resetBlock_frame_getElem _, resetBlock_capCount _, resetBlock_resBits _, resetBlock_resValue _,
    resetBlock_encBusy _, resetBlock_emLine _, by simp, by simp⟩

end Sys2Proof.Machine
end

