-- ==== Sys2Proof/Proofs/BusAccess.lean ====
section
/-! PROOFS. Which bus accesses the block admits (20 R52, R53): what an access of each width and direction does, what RD and
WR do at a misaligned offset, and the host's turn whose next line is an access. -/

namespace Sys2Proof.Machine

/-! ### RD and WR at a misaligned offset -/

/-- The alignment check fails exactly at the offsets that are no multiple of 4. -/
theorem offAligned_eq_false_iff (off : Off) : offAligned off = false ↔ off.toNat % 4 ≠ 0 := by
  rw [← Bool.not_eq_true, offAligned_iff]

/-- An RD of a misaligned offset is refused (20 R53). -/
theorem exec_rd_misaligned {off : Off} (h : off.toNat % 4 ≠ 0) (s : State) :
    exec (.rd off) s = .refused .misalignedAccess := by
  simp [exec, execRd, (offAligned_eq_false_iff off).2 h]

/-- A WR to a misaligned offset is refused (20 R53). -/
theorem exec_wr_misaligned {off : Off} (h : off.toNat % 4 ≠ 0) (v : Word) (s : State) :
    exec (.wr off v) s = .refused .misalignedAccess := by
  simp [exec, execWr, (offAligned_eq_false_iff off).2 h]

/-! ### One access -/

/-- An access of 8 or 16 bits is refused whatever its offset (20 R53). -/
theorem runAccess_narrow {a : Access} (hw : a.width ≠ .w32) (s : State) :
    runAccess a s = .refused .narrowAccess := by simp [runAccess, hw]

/-- A 32-bit write is the WR of its offset and data (20 R52). -/
theorem runAccess_write {a : Access} (hw : a.width = .w32) (hwr : a.write = true) (s : State) :
    runAccess a s = exec (.wr a.off a.data) s := by simp [runAccess, hw, hwr]

/-- A 32-bit read is the RD of its offset (20 R52). -/
theorem runAccess_read {a : Access} (hw : a.width = .w32) (hrd : a.write = false) (s : State) :
    runAccess a s = exec (.rd a.off) s := by simp [runAccess, hw, hrd]

/-- A misaligned 32-bit access is refused in either direction (20 R53). -/
theorem runAccess_misaligned {a : Access} (hw : a.width = .w32) (ho : a.off.toNat % 4 ≠ 0) (s : State) :
    runAccess a s = .refused .misalignedAccess := by
  cases hdir : a.write with
  | true => rw [runAccess_write hw hdir, exec_wr_misaligned ho]
  | false => rw [runAccess_read hw hdir, exec_rd_misaligned ho]

/-! ### The step of an access -/

/-- On the host's turn with an access as its next line, the step runs the access with turn and line used up (42 R145). -/
theorem step_access {s : State} {a : Access} {rest : List HostLine} (hn : nextTurn s = .host)
    (hp : s.program = .access a :: rest) : step s = runAccess a (afterFetch s rest) := by
  have hpop : (popSchedule s).program = .access a :: rest := hp
  simp only [step, hn, takeTurn, hostTurn, hpop, afterFetch]

/-- Settles O13: the step is the access of the host's next line, and that is refused by its width, refused by its offset,
or an RD or WR, which goes on at an aligned offset. -/
theorem onlyAlignedWordAccesses : Obligations.OnlyAlignedWordAccesses := by
  intro s a rest hn hp
  rw [step_access hn hp]
  refine ⟨fun hw => runAccess_narrow hw _, fun hw ho => runAccess_misaligned hw ho _, ?_, ?_⟩
  · intro hw ho hwr
    have hwrite := exec_wr ((offAligned_iff a.off).2 ho) a.data (afterFetch s rest)
    exact ⟨_, (runAccess_write hw hwr _).trans hwrite, hwrite⟩
  · intro hw ho hrd
    have hread := exec_rd ((offAligned_iff a.off).2 ho) (afterFetch s rest)
    exact ⟨_, (runAccess_read hw hrd _).trans hread, hread⟩

end Sys2Proof.Machine
end

