-- ==== Sys2Proof/Proofs/CommandOpcode.lean ====
section
/-! PROOFS. OPCODE alone selects the command of a command word (30 R70, R71): OPCODE as the word's bits under its mask, and
the instruction each OPCODE decodes to. -/

namespace Sys2Proof.Machine

/-! ### OPCODE's mask -/

theorem opcodeMask_toNat (w : Word) : (w &&& 0x000000FF#32).toNat = (opcodeOf w).toNat := by
  rw [BitVec.toNat_and, opcodeOf_toNat]
  exact Nat.and_two_pow_sub_one_eq_mod w.toNat 8

theorem opcodeMask_eq_iff (w : Word) {op : Nat} (hop : op < 2 ^ 8) :
    w &&& 0x000000FF#32 = BitVec.ofNat 32 op ↔ opcodeOf w = BitVec.ofNat 8 op := by
  rw [← BitVec.toNat_inj, ← BitVec.toNat_inj, opcodeMask_toNat, BitVec.toNat_ofNat, BitVec.toNat_ofNat,
    Nat.mod_eq_of_lt hop, Nat.mod_eq_of_lt (by omega)]

/-- The bits under the mask are 0x03 or more exactly when OPCODE is reserved (30 R72). -/
theorem three_le_opcodeMask_iff (w : Word) :
    0x03#32 ≤ w &&& 0x000000FF#32 ↔ opcodeOf w ≠ 0x00#8 ∧ opcodeOf w ≠ 0x01#8 ∧ opcodeOf w ≠ 0x02#8 := by
  rw [BitVec.le_def, opcodeMask_toNat]
  bv_omega

/-! ### The instruction of an OPCODE -/

theorem decode_cmd_nop {w : Word} (h : opcodeOf w = 0x00#8) :
    decode (.cmd w) = .ok (.nop (w.extractLsb' 8 24)) := by
  rw [opcodeOf] at h
  simp [decode, decodeCmdWord, h]

theorem decode_cmd_encode {w : Word} (h : opcodeOf w = 0x01#8) :
    decode (.cmd w) = .ok (.encodeCmd (w.extractLsb' 8 24)) := by
  rw [opcodeOf] at h
  simp [decode, decodeCmdWord, h]

theorem decode_cmd_decode {w : Word} (h : opcodeOf w = 0x02#8) :
    decode (.cmd w) = .ok (.decodeCmd (w.extractLsb' 8 24)) := by
  rw [opcodeOf] at h
  simp [decode, decodeCmdWord, h]

theorem decode_cmd_reserved {w : Word} (h0 : opcodeOf w ≠ 0x00#8) (h1 : opcodeOf w ≠ 0x01#8)
    (h2 : opcodeOf w ≠ 0x02#8) : decode (.cmd w) = .ok (.reservedCmd (opcodeOf w) (w.extractLsb' 8 24)) := by
  rw [opcodeOf] at *
  simp [decode, decodeCmdWord, h0, h1, h2]

/-- Settles O3, by the four ranges of OPCODE: in each the word decodes to one command, and the four commands differ. -/
theorem opcodeAloneSelectsCommand : Obligations.OpcodeAloneSelectsCommand := by
  intro w
  rw [opcodeMask_eq_iff w (by decide), opcodeMask_eq_iff w (by decide), opcodeMask_eq_iff w (by decide),
    three_le_opcodeMask_iff]
  by_cases h0 : opcodeOf w = 0x00#8
  · simp [h0, decode_cmd_nop h0]
  · by_cases h1 : opcodeOf w = 0x01#8
    · simp [h1, decode_cmd_encode h1]
    · by_cases h2 : opcodeOf w = 0x02#8
      · simp [h2, decode_cmd_decode h2]
      · simp [h0, h1, h2, decode_cmd_reserved h0 h1 h2]

end Sys2Proof.Machine
end

