-- ==== Sys2Proof/Proofs/PulseTrain.lean ====
section
/-! PROOFS. The pulse train of a frame: its elements position by position (40 R90, R91) and their counts (40 R92). -/

namespace Sys2Proof.Machine

/-! ### The elements of the symbol sequence -/

/-- The bytes' pulses stand from symbol 3 on, behind the carrier and the header (40 R90, R91). -/
theorem symbols_getElem_bytes {f : List Byte} {m : Nat} (hm : m < 16 * f.length) :
    (symbols f)[3 + m]? = (f.flatMap bytePulses)[m]? := by
  rw [symbols_eq_append, Nat.add_comm]
  simp only [List.cons_append, List.append_assoc, List.getElem?_cons_succ]
  exact List.getElem?_append_left (by rwa [flatMap_bytePulses_length])

/-- Behind the bytes' pulses stand the trailer mark and the idle sentinel, and nothing more (40 R90). -/
theorem symbols_getElem_trailer (f : List Byte) (m : Nat) :
    (symbols f)[3 + (16 * f.length + m)]? = [Symbol.mark trailerMarkUs, .space 0#16][m]? := by
  rw [symbols_eq_append, Nat.add_comm]
  simp only [List.cons_append, List.append_assoc, List.getElem?_cons_succ]
  rw [List.getElem?_append_right (by rw [flatMap_bytePulses_length]; omega), flatMap_bytePulses_length,
    Nat.add_sub_cancel_left]
  rfl

/-- Element `m` of the pulses of byte `j` (40 R90). -/
theorem symbols_getElem_byte {f : List Byte} {j m : Nat} {b : Byte} (hm : m < 16) (hb : f[j]? = some b) :
    (symbols f)[3 + (16 * j + m)]? = (bytePulses b)[m]? := by
  have hj : j < f.length := (List.getElem?_eq_some_iff.1 hb).1
  rw [symbols_getElem_bytes (by omega), flatMap_bytePulses_getElem hm hb]

/-- Bit `k` of byte `j`, counted from the most significant, is the mark and the space at its place (40 R90, 20 R57). -/
theorem symbols_getElem_bit {f : List Byte} {j k : Nat} {b : Byte} (hk : k < 8) (hb : f[j]? = some b) :
    (symbols f)[3 + 16 * j + 2 * k]? = some (.mark bitMarkUs) ∧
      (symbols f)[4 + 16 * j + 2 * k]? = some (.space (if b.getLsbD (7 - k) then oneSpaceUs else zeroSpaceUs)) := by
  obtain ⟨hmark, hspace⟩ := bytePulses_getElem b hk
  rw [← symbols_getElem_byte (by omega) hb] at hmark hspace
  rw [show 3 + 16 * j + 2 * k = 3 + (16 * j + 2 * k) by omega,
    show 4 + 16 * j + 2 * k = 3 + (16 * j + (2 * k + 1)) by omega]
  exact ⟨hmark, hspace⟩

/-- Settles O18: the carrier and the header come first, each bit's pulses stand at their place among the bytes' pulses, and
the two elements of the trailer end the sequence. -/
theorem symbolSequence : Obligations.SymbolSequence := by
  intro f
  refine ⟨rfl, rfl, rfl, fun j k b => symbols_getElem_bit, ?_, ?_, ?_⟩
  · exact symbols_getElem_trailer f 0
  · rw [show 4 + 16 * f.length = 3 + (16 * f.length + 1) by omega]
    exact symbols_getElem_trailer f 1
  · rw [show 5 + 16 * f.length = 3 + (16 * f.length + 2) by omega]
    exact symbols_getElem_trailer f 2

/-! ### The counts of a train -/

/-- A train has a header, 16 pulses for each byte, and a trailer (40 R92). -/
@[simp] theorem train_length (f : List Byte) : (train f).length = 16 * f.length + 4 := by
  simp only [train, List.length_append, flatMap_bytePulses_length, List.length_cons, List.length_nil]
  omega

/-- The symbol sequence is the train and the carrier (40 R91, R92). -/
@[simp] theorem symbols_length (f : List Byte) : (symbols f).length = 16 * f.length + 5 := by simp [symbols]

section Count
variable {p : Symbol → Bool} {c : Nat} (hbit : ∀ x, (bitPulses x).countP p = c)
include hbit

/-- What is counted `c` times in the pulses of a bit is counted `8 * c` times in those of a byte. -/
theorem countP_bytePulses (b : Byte) : (bytePulses b).countP p = 8 * c := by
  simp only [bytePulses, byteBits, List.flatMap_cons, List.flatMap_nil, List.countP_append, List.countP_nil, hbit]
  omega

theorem countP_flatMap_bytePulses (f : List Byte) : (f.flatMap bytePulses).countP p = 8 * c * f.length := by
  induction f with
  | nil => rfl
  | cons b f ih =>
    rw [List.flatMap_cons, List.countP_append, countP_bytePulses hbit, ih, List.length_cons, Nat.mul_succ, Nat.add_comm]

/-- A count over a train is, for each byte, eight times the count of a bit, and the count of header and trailer. -/
theorem countP_train (f : List Byte) :
    (train f).countP p =
      8 * c * f.length +
        [Symbol.mark hdrMarkUs, .space hdrSpaceUs, .mark trailerMarkUs, .space 0#16].countP p := by
  have hends : [Symbol.mark hdrMarkUs, .space hdrSpaceUs, .mark trailerMarkUs, .space 0#16] =
      [.mark hdrMarkUs, .space hdrSpaceUs] ++ [.mark trailerMarkUs, .space 0#16] := rfl
  rw [train, hends, List.countP_append, List.countP_append, List.countP_append, countP_flatMap_bytePulses hbit]
  omega

end Count

/-- Settles O19: each count is that of the header, of the trailer and of the bits, and every bit has two timed pulses, one
mark and one space. -/
theorem trainCounts : Obligations.TrainCounts := by
  intro f isMark isSpace
  have htimed := countP_train (p := fun y => symbolUs y != 0) (c := 2) (by decide) f
  have hmark := countP_train (p := isMark) (c := 1) (by decide) f
  have hspace := countP_train (p := isSpace) (c := 1) (by decide) f
  exact ⟨train_length f, htimed, hmark, hspace, symbols_length f⟩

end Sys2Proof.Machine
end

