-- ==== Sys2Proof/Proofs/EncodeCommand.lean ====
section
/-! PROOFS. The ENCODE command (40 R93): its three outcomes by what holds before it (60 R156), the frame it takes a snapshot
of, and the writes to CMD that run it. -/

namespace Sys2Proof.Machine

/-! ### The three outcomes -/

/-- While a train is in flight an ENCODE is refused with BUSY, whatever FRAME_LEN holds (60 R156). -/
theorem runEncode_busy {s : State} (hb : s.encBusy = true) : runEncode s = refuseEncode .busy s := by
  simpa [hb] using runEncode_cases s

/-- An ENCODE of an illegal length is refused with BAD_LEN (60 R152). -/
theorem runEncode_badLen {s : State} (hb : s.encBusy = false) (hl : s.frameLen.toNat ∉ legalLen) :
    runEncode s = refuseEncode .badLen s := by
  simpa [hb, hl] using runEncode_cases s

/-- An ENCODE of a legal length is accepted on the frame's bytes (40 R93). -/
theorem runEncode_accepted {s : State} (hb : s.encBusy = false) (hl : s.frameLen.toNat ∈ legalLen) :
    runEncode s = acceptEncode ((symbols (frameBytes s)).map symbolWord) s := by
  simpa [hb, hl] using runEncode_cases s

/-! ### The frame an ENCODE reads -/

theorem frameBytes_getElem {s : State} {j : Nat} (hj : j < s.frameLen.toNat) : (frameBytes s)[j]? = s.frame[j]? := by
  rw [frameBytes, List.getElem?_take_of_lt hj, Vector.getElem?_toList]

theorem frameBytes_length_le (s : State) : (frameBytes s).length ≤ s.frameLen.toNat := List.length_take_le _ _

/-- A list of FRAME_LEN bytes that are FRAME0 and up is the frame an ENCODE reads (10 R31). -/
theorem frameBytes_eq {s : State} {f : List Byte} (hl : f.length = s.frameLen.toNat)
    (hf : ∀ j, j < f.length → f[j]? = s.frame[j]?) : frameBytes s = f := by
  apply List.ext_getElem?
  intro j
  by_cases hj : j < f.length
  · rw [hf j hj, frameBytes_getElem (by omega)]
  · have := frameBytes_length_le s
    rw [List.getElem?_eq_none (by omega), List.getElem?_eq_none (by omega)]

/-! ### The instruction and the writes that run it -/

theorem exec_encodeCmd (ign : BitVec 24) (s : State) : exec (.encodeCmd ign) s = .next (runEncode s) := rfl

/-- A command word with OPCODE 0x01 runs an ENCODE, whatever its other bits (30 R70, R71). -/
theorem runCommand_encode {v : Word} (hv : opcodeOf v = 0x01#8) (s : State) : runCommand v s = runEncode s := by
  simpa [hv] using runCommand_cases v s

/-- A WR to CMD runs the command of its data (42 R141, R144). -/
theorem exec_wr_cmd (v : Word) (s : State) : exec (.wr (regOffset .cmd) v) s = .next (runCommand v s) := by
  rw [exec_wr (offAligned_regOffset .cmd), busWrite_cmd]

/-- Settles O21: the busy check comes first and the length check second, and the bytes given are the frame that the accepted
ENCODE reads. -/
theorem encodeCommand : Obligations.EncodeCommand := by
  intro ign s
  rw [exec_encodeCmd]
  refine ⟨fun hb hl f hlen hf => ?_, fun hb hl => ?_, fun hb => ?_, fun v hv => ?_⟩
  · rw [runEncode_accepted hb hl, frameBytes_eq hlen hf]; rfl
  · rw [runEncode_badLen hb hl]; rfl
  · rw [runEncode_busy hb]; rfl
  · have hop : opcodeOf v = 0x01#8 := BitVec.eq_of_toNat_eq ((opcodeOf_toNat v).trans hv)
    exact (exec_wr_cmd v s).trans (congrArg _ (runCommand_encode hop s))

end Sys2Proof.Machine
end

