-- ==== Sys2Proof/Proofs/PulseDecoder.lean ====
section
/-! PROOFS. The pulse decoder as a function of a capture: the classes of a bit space (41 R111), the length gate (41 R112),
and the elements a decode reads (41 R116, R118). -/

namespace Sys2Proof.Machine

/-! ### The classes of a bit space -/

/-- At a legal tolerance no duration is in both bands of a bit space: even at T = 48 ZERO's ends at 814, below 832, where
ONE's begins (41 R110, R111). -/
theorem inBand_one_excludes_zero {T d : Nat} (hT : T ≤ 48) (hone : inBand T d 1600 = true) : inBand T d 550 = false := by
  rw [inBand_iff] at hone
  rw [Bool.eq_false_iff, ne_eq, inBand_iff]
  omega

/-- Every reference is in its own band (41 R110). -/
theorem inBand_ref (T ref : Nat) : inBand T ref ref = true := by
  rw [inBand_iff, Nat.mul_comm 100]
  exact ⟨Nat.mul_le_mul_left _ (by omega), Nat.mul_le_mul_left _ (by omega)⟩

/-- A duration in ONE's band is a ONE (41 R111). -/
theorem classify_one {T d : Nat} (h : inBand T d 1600 = true) : classify T d = some true := if_pos h

/-- A duration in ZERO's band and not in ONE's is a ZERO (41 R111). -/
theorem classify_zero {T d : Nat} (hone : inBand T d 1600 = false) (hzero : inBand T d 550 = true) :
    classify T d = some false :=
  (if_neg (Bool.eq_false_iff.1 hone)).trans (if_pos hzero)

/-- A duration in neither band is unclassifiable (41 R111). -/
theorem classify_neither {T d : Nat} (hone : inBand T d 1600 = false) (hzero : inBand T d 550 = false) :
    classify T d = none :=
  (if_neg (Bool.eq_false_iff.1 hone)).trans (if_neg (Bool.eq_false_iff.1 hzero))

/-- Settles O30: the bands are disjoint, so a duration is in ONE's band alone, in ZERO's alone or in neither, and each of
these gives its class. -/
theorem spaceClassification : Obligations.SpaceClassification := by
  intro T d hT
  cases hone : inBand T d 1600 with
  | true => simp [classify_one hone, inBand_one_excludes_zero hT hone]
  | false =>
    cases hzero : inBand T d 550 with
    | true => simp [classify_zero hone hzero]
    | false => simp [classify_neither hone hzero]

/-- At a legal tolerance the space of a bit is of the bit's class (41 R111, 40 R90). -/
theorem classify_bitSpace {T : Nat} (hT : T ≤ 48) (x : Bool) :
    classify T (if x then oneSpaceUs else zeroSpaceUs).toNat = some x := by
  cases x with
  | true => exact classify_one (inBand_ref T 1600)
  | false =>
    obtain ⟨-, -, hzero, -⟩ := spaceClassification T 550 hT
    exact hzero.2 (inBand_ref T 550)

/-! ### The steps of a decode -/

/-- A capture that does not pass the gate fails with LEN at position 0 (41 R112). -/
theorem decodePulses_of_gate_none (T : Nat) {c : List Dur} (h : gate c.length = none) :
    decodePulses T c = .fail .len 0#8 := by
  simp only [decodePulses, h]

/-- A capture that passes the gate is decoded by its header mark, its header space and its bits, in this order (41 R113 to
R115). -/
theorem decodePulses_of_gate_some (T : Nat) {c : List Dur} {n : Nat} (h : gate c.length = some n) :
    decodePulses T c =
      if inBand T (durAt c 1) 4400 then
        if inBand T (durAt c 2) 4400 then scanBits T c (BitVec.ofNat 7 n) 0 32 0#32 else .fail .hdrSpace 2#8
      else .fail .hdrMark 1#8 := by
  simp only [decodePulses, h]; rfl

/-- Only the gate fails with LEN (41 R112, 60 R151). -/
theorem decodePulses_eq_len_iff (T : Nat) (c : List Dur) : decodePulses T c = .fail .len 0#8 ↔ gate c.length = none := by
  refine ⟨fun hlen => ?_, decodePulses_of_gate_none T⟩
  cases hg : gate c.length with
  | none => rfl
  | some n =>
    rw [decodePulses_of_gate_some T hg] at hlen
    split at hlen
    · split at hlen
      · obtain ⟨j, -, -, ⟨hcode, -⟩ | ⟨hcode, -⟩⟩ := scanBits_fail hlen <;> cases hcode
      · cases hlen
    · cases hlen

/-! ### The length gate -/

/-- The gate passes at the two lengths of each legal bit count and at no other (41 R112). -/
theorem gate_eq_some_iff (n N : Nat) :
    gate n = some N ↔ (n, N) ∈ [(115, 56), (116, 56), (147, 72), (148, 72), (163, 80), (164, 80)] := by
  simp only [List.mem_cons, Prod.mk.injEq, List.not_mem_nil, or_false]
  refine ⟨fun h => ?_, ?_⟩
  · obtain ⟨hN, hn⟩ := gate_some h
    simp only [legalBits, List.mem_cons, List.not_mem_nil, or_false] at hN
    omega
  · rintro (⟨rfl, rfl⟩ | ⟨rfl, rfl⟩ | ⟨rfl, rfl⟩ | ⟨rfl, rfl⟩ | ⟨rfl, rfl⟩ | ⟨rfl, rfl⟩) <;> rfl

/-- The gate fails exactly at the other lengths (41 R112). -/
theorem gate_eq_none_iff (n : Nat) : gate n = none ↔ n ∉ [115, 116, 147, 148, 163, 164] := by
  simp only [List.mem_cons, List.not_mem_nil, or_false]
  refine ⟨?_, fun hn => ?_⟩
  · rintro hg (rfl | rfl | rfl | rfl | rfl | rfl) <;> cases hg
  · cases hg : gate n with
    | none => rfl
    | some N =>
      have := (gate_eq_some_iff n N).1 hg
      simp only [List.mem_cons, Prod.mk.injEq, List.not_mem_nil, or_false] at this
      omega

/-- Settles O31: a passed gate names its two lengths, and LEN is what only the gate reports. -/
theorem lengthGate : Obligations.LengthGate :=
  ⟨gate_eq_some_iff, fun T c => (gate_eq_none_iff c.length).symm.trans (decodePulses_eq_len_iff T c).symm⟩

/-! ### The elements a decode reads -/

/-- Captures with the same duration, or none, at a position read alike there (41 R116). -/
theorem durAt_congr {p q : List Dur} {i : Nat} (h : p[i]? = q[i]?) : durAt p i = durAt q i := by
  simp only [durAt, List.getD_eq_getElem?_getD, h]

/-- The scan of the bits `i` to `i + k - 1` reads their elements, `3 + 2 * i` to `2 + 2 * (i + k)`, and no other (41 R115,
R118). -/
theorem scanBits_congr {T : Nat} {p q : List Dur} {bits : BitVec 7} {i k : Nat} {acc : Word}
    (h : ∀ m, 3 + 2 * i ≤ m → m < 3 + 2 * (i + k) → durAt p m = durAt q m) :
    scanBits T p bits i k acc = scanBits T q bits i k acc := by
  induction k generalizing i acc with
  | zero => rfl
  | succ k ih =>
    have hrest (b : Bool) := ih (i := i + 1) (acc := acc <<< 1 ||| (BitVec.ofBool b).setWidth 32)
      fun m hlo hhi => h m (by omega) (by omega)
    simp only [scanBits_succ, h (3 + 2 * i) (by omega) (by omega), h (4 + 2 * i) (by omega) (by omega), hrest]

/-- Settles O34: the gate reads the length alone, the header checks elements 1 and 2, and the scan elements 3 to 66. -/
theorem decodeReadsElements1To66 : Obligations.DecodeReadsElements1To66 := by
  intro T p q hlen hpq
  have hdur (m : Nat) (hlo : 1 ≤ m) (hhi : m ≤ 66) : durAt p m = durAt q m := durAt_congr (hpq m hlo hhi)
  cases hg : gate p.length with
  | none => rw [decodePulses_of_gate_none T hg, decodePulses_of_gate_none T (hlen ▸ hg)]
  | some n =>
    rw [decodePulses_of_gate_some T hg, decodePulses_of_gate_some T (hlen ▸ hg), hdur 1 (by omega) (by omega),
      hdur 2 (by omega) (by omega), scanBits_congr fun m hlo hhi => hdur m (by omega) (by omega)]

end Sys2Proof.Machine
end

