-- ==== Sys2Proof/Proofs/RoundTrip.lean ====
section
/-! PROOFS. The round trip (41 R121): the bits a capture holds are the bits its decode shifts into RES_VALUE, and the capture
of a frame's train holds the bits of the frame's bytes. -/

namespace Sys2Proof.Machine

/-! ### Bits shifted into a word -/

/-- The word after bits are shifted in one by one (41 R115). -/
def shiftBits (acc : Word) (xs : List Bool) : Word :=
  xs.foldl (fun v x => v <<< 1 ||| (BitVec.ofBool x).setWidth 32) acc

@[simp] theorem shiftBits_nil (acc : Word) : shiftBits acc [] = acc := rfl

@[simp] theorem shiftBits_cons (acc : Word) (x : Bool) (xs : List Bool) :
    shiftBits acc (x :: xs) = shiftBits (acc <<< 1 ||| (BitVec.ofBool x).setWidth 32) xs := rfl

@[simp] theorem shiftBits_append (acc : Word) (xs ys : List Bool) :
    shiftBits acc (xs ++ ys) = shiftBits (shiftBits acc xs) ys := List.foldl_append

/-- A byte's bits shifted in are the byte shifted in (20 R57). -/
theorem shiftBits_byteBits (acc : Word) (b : Byte) : shiftBits acc (byteBits b) = acc <<< 8 ||| b.setWidth 32 := by
  apply BitVec.eq_of_getLsbD_eq
  intro i hi
  simp only [byteBits, shiftBits_cons, shiftBits_nil]
  interval_cases i <;> simp

/-! ### The scan of a capture that holds given bits -/

/-- The capture holds the bits `xs` from bit `i` on: each one's mark is in its band and its space is of its class (41
R115). -/
def HoldsBits (T : Nat) (c : List Dur) (i : Nat) (xs : List Bool) : Prop :=
  ∀ j x, xs[j]? = some x →
    inBand T (durAt c (3 + 2 * (i + j))) 550 = true ∧ classify T (durAt c (4 + 2 * (i + j))) = some x

/-- The scan of the bits a capture holds shifts them in (41 R115). -/
theorem scanBits_of_holdsBits {T : Nat} {c : List Dur} {bits : BitVec 7} {i : Nat} {acc : Word} {xs : List Bool}
    (h : HoldsBits T c i xs) : scanBits T c bits i xs.length acc = .ok bits (shiftBits acc xs) := by
  induction xs generalizing i acc with
  | nil => rfl
  | cons x xs ih =>
    have hrest : HoldsBits T c (i + 1) xs := fun j y hy => by
      simpa only [show i + (j + 1) = i + 1 + j by omega] using h (j + 1) y hy
    obtain ⟨hmark, hspace⟩ := h 0 x rfl
    rw [Nat.add_zero] at hmark hspace
    rw [List.length_cons, scanBits_succ, if_pos hmark, hspace]
    exact ih hrest

/-- A capture that holds bits holds the first of them (41 R115). -/
theorem HoldsBits.of_append {T : Nat} {c : List Dur} {i : Nat} {xs ys : List Bool} (h : HoldsBits T c i (xs ++ ys)) :
    HoldsBits T c i xs :=
  fun j x hx => h j x ((List.getElem?_append_left (List.getElem?_eq_some_iff.1 hx).1).trans hx)

/-! ### The capture of a train -/

/-- The mark and the space of bit `j` among the durations of bits (40 R90). -/
theorem flatMap_bitDurs_getElem {xs : List Bool} {j : Nat} {x : Bool} (h : xs[j]? = some x) :
    (xs.flatMap bitDurs)[2 * j]? = some bitMarkUs ∧
      (xs.flatMap bitDurs)[2 * j + 1]? = some (if x then oneSpaceUs else zeroSpaceUs) := by
  induction xs generalizing j with
  | nil => cases h
  | cons y xs ih =>
    cases j with
    | zero => cases h; exact ⟨rfl, rfl⟩
    | succ j => exact ih h

/-- The header mark and the header space are captured as elements 1 and 2 (41 R120). -/
theorem durAt_capture_train_header (f : List Byte) (g : Dur) :
    durAt (capture (train f) g) 1 = 4400 ∧ durAt (capture (train f) g) 2 = 4400 := by
  rw [capture_train]; exact ⟨rfl, rfl⟩

/-- From element 3 on, a train's capture holds the durations of the bits of its frame's bytes (41 R120). -/
theorem durAt_capture_train {f : List Byte} {g d : Dur} {m : Nat}
    (h : ((f.flatMap byteBits).flatMap bitDurs)[m]? = some d) : durAt (capture (train f) g) (3 + m) = d.toNat := by
  rw [List.flatMap_assoc] at h
  have hm := (List.getElem?_eq_some_iff.1 h).1
  have hget : (capture (train f) g)[3 + m]? = some d := by
    rw [capture_train, Nat.add_comm, List.append_assoc]
    exact (List.getElem?_append_left hm).trans h
  rw [durAt, List.getD_eq_getElem?_getD, hget]
  rfl

/-- A train's capture holds the bits of its frame's bytes, at every legal tolerance: each duration is the one its band is
around (41 R110, R111). -/
theorem holdsBits_capture_train {T : Nat} (hT : T ≤ 48) (f : List Byte) (g : Dur) :
    HoldsBits T (capture (train f) g) 0 (f.flatMap byteBits) := by
  intro j x hx
  obtain ⟨hmark, hspace⟩ := flatMap_bitDurs_getElem hx
  rw [Nat.zero_add, durAt_capture_train hmark, show 4 + 2 * j = 3 + (2 * j + 1) by omega, durAt_capture_train hspace]
  exact ⟨inBand_ref T 550, classify_bitSpace hT x⟩

/-- A frame's train is captured in two durations for each bit, and four more (41 R120). -/
theorem capture_train_length (f : List Byte) (g : Dur) : (capture (train f) g).length = 16 * f.length + 4 := by
  have htimed := countP_train (p := fun y => (pulseDur y).isSome) (c := 2) (by decide) f
  rw [capture, List.length_cons, List.length_filterMap_eq_countP, htimed]
  rfl

/-- A legal frame's capture passes the gate with the frame's number of bits (41 R112, R121). -/
theorem gate_capture_train {f : List Byte} (hf : LegalFrame f) (g : Dur) :
    gate (capture (train f) g).length = some (8 * f.length) := by
  rw [capture_train_length, gate_eq_some_iff]
  simp only [LegalFrame, legalLen, List.mem_cons, List.not_mem_nil, or_false] at hf
  rcases hf with h | h | h <;> simp [h]

/-- Settles O35: the gate passes, both header durations are 4400, and the scan shifts in the first 32 of the capture's bits,
which are those of the first four bytes. -/
theorem roundTrip : Obligations.RoundTrip := by
  intro b0 b1 b2 b3 more g T hf hT
  obtain ⟨hmark, hspace⟩ := durAt_capture_train_header (b0 :: b1 :: b2 :: b3 :: more) g
  have hbits : HoldsBits T (capture (train (b0 :: b1 :: b2 :: b3 :: more)) g) 0
      (byteBits b0 ++ byteBits b1 ++ byteBits b2 ++ byteBits b3) :=
    (holdsBits_capture_train hT ([b0, b1, b2, b3] ++ more) g).of_append (ys := more.flatMap byteBits)
  rw [decodePulses_of_gate_some T (gate_capture_train hf g), hmark, hspace, if_pos (inBand_ref T 4400),
    if_pos (inBand_ref T 4400)]
  have hlen : (b0 :: b1 :: b2 :: b3 :: more).length = 4 + more.length := by simp only [List.length_cons]; omega
  refine (scanBits_of_holdsBits hbits).trans ?_
  simp only [shiftBits_append, shiftBits_byteBits, hlen, BitVec.shiftLeft_or_distrib, ← BitVec.shiftLeft_add,
    BitVec.zero_shiftLeft, BitVec.zero_or]

end Sys2Proof.Machine
end

