-- ==== Sys2Proof/Proofs/DecodeCommand.lean ====
section
/-! PROOFS. The DECODE command (41 R117): the capture it reads, what each outcome writes, and the state it is a function of
(41 R123). -/

namespace Sys2Proof.Machine

/-! ### The capture a DECODE reads -/

theorem captureOf_getElem {s : State} {i : Nat} (hi : i < s.capCount.toNat) : (captureOf s)[i]? = s.cap[i]? := by
  rw [captureOf, List.getElem?_take_of_lt hi, Vector.getElem?_toList]

/-- A list of CAP_COUNT durations that are CAP0 and up is the capture a DECODE reads (30 R77). -/
theorem captureOf_eq {s : State} {p : List Dur} (hl : p.length = s.capCount.toNat)
    (hp : ∀ i, i < p.length → p[i]? = s.cap[i]?) : captureOf s = p := by
  apply List.ext_getElem?
  intro i
  by_cases hi : i < p.length
  · rw [hp i hi, captureOf_getElem (by omega)]
  · have : (captureOf s).length ≤ s.capCount.toNat := List.length_take_le _ _
    rw [List.getElem?_eq_none (by omega), List.getElem?_eq_none (by omega)]

/-! ### The instruction and the writes that run it -/

theorem exec_decodeCmd (ign : BitVec 24) (s : State) : exec (.decodeCmd ign) s = .next (runDecode s) := rfl

/-- A command word with OPCODE 0x02 runs a DECODE, whatever its other bits (30 R70, R71). -/
theorem runCommand_decode {v : Word} (hv : opcodeOf v = 0x02#8) (s : State) : runCommand v s = runDecode s := by
  simpa [hv] using runCommand_cases v s

/-- A DECODE writes the outcome of the decode of the capture it reads (41 R117). -/
theorem runDecode_eq {s : State} {r : DecodeResult} (h : decodePulses s.tolPct.val (captureOf s) = r) :
    runDecode s = recordDecode r s := by
  rw [← h]; rfl

/-- Settles O37: the list given is the capture that the DECODE reads, and each outcome of its decode has its own record. -/
theorem decodeCommand : Obligations.DecodeCommand := by
  intro ign s p hl hp
  obtain rfl := captureOf_eq hl hp
  rw [exec_decodeCmd]
  refine ⟨fun bits value hok => ?_, fun code pos hfail => ?_, fun v hv => ?_⟩
  · rw [runDecode_eq hok]; rfl
  · rw [runDecode_eq hfail]; exact ⟨_, _, rfl⟩
  · have hop : opcodeOf v = 0x02#8 := BitVec.eq_of_toNat_eq ((opcodeOf_toNat v).trans hv)
    exact (exec_wr_cmd v s).trans (congrArg _ (runCommand_decode hop s))

/-! ### What a DECODE depends on and what it leaves alone -/

/-- The record of an outcome in DEC_STATUS is the outcome's own, whatever the state holds (41 R117). -/
theorem recordDecode_decStatusWord (r : DecodeResult) (s u : State) :
    decStatusWord (recordDecode r s) = decStatusWord (recordDecode r u) := by cases r <;> rfl

/-- After a success the results are the outcome's own, whatever the state holds (41 R117). -/
theorem recordDecode_results {r : DecodeResult} {s : State} (u : State) (h : (recordDecode r s).decOk = true) :
    (recordDecode r s).resBits = (recordDecode r u).resBits ∧
      (recordDecode r s).resValue = (recordDecode r u).resValue := by
  cases r with
  | ok bits value => exact ⟨rfl, rfl⟩
  | fail code pos => cases h

/-- The record of an outcome changes DEC_STATUS, the results and the count of draws, and nothing else (41 R117). -/
theorem recordDecode_frame_eq (r : DecodeResult) (s : State) :
    recordDecode r s = { s with
      decDone := (recordDecode r s).decDone, decOk := (recordDecode r s).decOk, decErr := (recordDecode r s).decErr
      failPos := (recordDecode r s).failPos, resBits := (recordDecode r s).resBits
      resValue := (recordDecode r s).resValue, draws := (recordDecode r s).draws } := by
  cases r <;> rfl

/-- Settles O38: the two captures and tolerances are the same, so one outcome is recorded in both states. -/
theorem decodeIsAFunctionOfTheCapture : Obligations.DecodeIsAFunctionOfTheCapture := by
  intro s u i j hcount hcap htol
  have hsame : decodePulses u.tolPct.val (captureOf u) = decodePulses s.tolPct.val (captureOf s) := by
    rw [captureOf, captureOf, hcount, hcap, htol]
  refine ⟨_, _, exec_decodeCmd i s, exec_decodeCmd j u, ?_⟩
  rw [runDecode_eq rfl, runDecode_eq hsame]
  exact ⟨recordDecode_decStatusWord _ s u, recordDecode_results u, recordDecode_frame_eq _ s⟩

end Sys2Proof.Machine
end

