-- ==== Sys2Proof/Proofs/HostOperations.lean ====
section
/-! PROOFS. The host operations RD and WR offset by offset (42 R140, R141), and the commands without effect (42 R142,
R143). -/

namespace Sys2Proof.Machine

/-! ### The offsets of the register map -/

/-- The offset of FRAMEi as a number (10 R20). -/
theorem regOffset_frame_toNat (i : Fin 10) : (regOffset (.frame i)).toNat = 0x010 + 4 * i.val :=
  Nat.mod_eq_of_lt (by omega)

/-- The offset of CAPi as a number (10 R20). -/
theorem regOffset_cap_toNat (i : Fin 256) : (regOffset (.cap i)).toNat = 0x400 + 4 * i.val :=
  Nat.mod_eq_of_lt (by omega)

theorem eq_regOffset_frame {off : Off} {i : Fin 10} (h : off.toNat = 0x010 + 4 * i.val) : off = regOffset (.frame i) :=
  BitVec.eq_of_toNat_eq (h.trans (regOffset_frame_toNat i).symm)

theorem eq_regOffset_cap {off : Off} {i : Fin 256} (h : off.toNat = 0x400 + 4 * i.val) : off = regOffset (.cap i) :=
  BitVec.eq_of_toNat_eq (h.trans (regOffset_cap_toNat i).symm)

/-- No register stands between FRAME9 and CAP_COUNT, nor between RES_VALUE and CAP0 (10 R20). -/
theorem regAt_gap {off : Off}
    (h : 0x038 ≤ off.toNat ∧ off.toNat ≤ 0x03C ∨ 0x04C ≤ off.toNat ∧ off.toNat ≤ 0x3FC) : regAt off = none := by
  rw [Option.eq_none_iff_forall_ne_some]
  intro r hr
  obtain rfl := regOffset_of_regAt hr
  cases r with
  | frame i => rw [regOffset_frame_toNat] at h; omega
  | cap i => rw [regOffset_cap_toNat] at h; omega
  | _ => revert h; decide

/-! ### RD -/

theorem busRead_of_offset {off : Off} {r : Reg} (h : off = regOffset r) (s : State) : busRead off s = readReg r s := by
  rw [h, busRead_regOffset]

/-- A read of an unmapped offset returns 0 (20 R54). -/
theorem busRead_unmapped {off : Off} (h : regAt off = none) (s : State) : busRead off s = 0#32 := by
  rw [busRead, h]

/-- A register of one zero-extended field reads as that field's number (10 R40). -/
theorem busRead_toNat_of_field {off : Off} {r : Reg} {w : Nat} {x : BitVec w} {s : State} (h : off = regOffset r)
    (hx : readReg r s = x.setWidth 32) (hw : w ≤ 32) : (busRead off s).toNat = x.toNat := by
  rw [busRead_of_offset h, hx, BitVec.toNat_setWidth_of_le hw]

/-- ENC_STATUS as a number made of its fields (10 R23 to R25). -/
theorem encStatusWord_toNat (s : State) :
    (encStatusWord s).toNat = (encErrCode s.encErr).toNat * 4 + s.encDone.toNat * 2 + s.encBusy.toNat := by
  simp only [encStatusWord, append_toNat, BitVec.toNat_ofBool, BitVec.toNat_ofNat]
  omega

/-- DEC_STATUS as a number made of its fields (10 R26 to R29). -/
theorem decStatusWord_toNat (s : State) :
    (decStatusWord s).toNat =
      s.failPos.toNat * 256 + (decErrCode s.decErr).toNat * 4 + s.decOk.toNat * 2 + s.decDone.toNat := by
  simp only [decStatusWord, append_toNat, BitVec.toNat_ofBool, BitVec.toNat_ofNat]
  omega

/-- Settles O11: at an aligned offset the value read is the bus read, which at a register's offset is the register's word
and in a gap of the map 0; the two refusals are those of any misaligned and of any narrow access. -/
theorem rdReturnsTheRegister : Obligations.RdReturnsTheRegister := by
  intro off s encErr decErr
  have hencErr : (encErrCode s.encErr).toNat = encErr := by
    subst encErr; cases s.encErr <;> rfl
  have hdecErr : (decErrCode s.decErr).toNat = decErr := by
    subst decErr; cases s.decErr <;> rfl
  refine ⟨fun ho => ⟨_, exec_rd ((offAligned_iff off).2 ho) s, fun h => ?_, fun h => ?_, fun h => ?_, fun h => ?_,
    fun i h => ?_, fun h => ?_, fun h => ?_, fun h => ?_, fun i h => ?_, fun h => ?_⟩,
    fun ho => exec_rd_misaligned ho s, fun a _ hw => runAccess_narrow hw s⟩
  · exact busRead_of_offset (r := .cmd) h s
  · rw [busRead_of_offset (r := .encStatus) h, ← hencErr]; exact encStatusWord_toNat s
  · rw [busRead_of_offset (r := .decStatus) h, ← hdecErr]; exact decStatusWord_toNat s
  · exact busRead_toNat_of_field (r := .frameLen) h rfl (by decide)
  · exact busRead_toNat_of_field (eq_regOffset_frame h) rfl (by decide)
  · exact busRead_toNat_of_field (r := .capCount) h rfl (by decide)
  · exact busRead_toNat_of_field (r := .resBits) h rfl (by decide)
  · exact busRead_of_offset (r := .resValue) h s
  · exact busRead_toNat_of_field (eq_regOffset_cap h) rfl (by decide)
  · exact busRead_unmapped (regAt_gap h) s

/-! ### WR -/

/-- A field keeps the low bits of the data (42 R141). -/
theorem extractLsb'_zero_eq_ofNat (v : Word) (n : Nat) : v.extractLsb' 0 n = BitVec.ofNat n v.toNat := rfl

/-- A WR at the offset of a register other than CMD stores to that register. -/
theorem exec_wr_of_offset {off : Off} {r : Reg} (h : off = regOffset r) (hr : r ≠ .cmd) (v : Word) (s : State) :
    exec (.wr off v) s = .next (storeReg r v s) := by
  rw [h, exec_wr (offAligned_regOffset r), busWrite_regOffset hr]

/-- A WR at an aligned offset without a register changes nothing (20 R54). -/
theorem exec_wr_unmapped {off : Off} (ho : off.toNat % 4 = 0) (h : regAt off = none) (v : Word) (s : State) :
    exec (.wr off v) s = .next s := by
  rw [exec_wr ((offAligned_iff off).2 ho), busWrite, h]

/-- Settles O12: a WR at a register's offset is the store to that register, which for a read-only one is no change; at CMD's
it runs the command that DATA decodes to; in a gap of the map it changes nothing. -/
theorem wrStoresTheField : Obligations.WrStoresTheField := by
  intro off data s
  refine ⟨fun h => ?_, fun h => ?_, fun i h => ?_, fun h => ?_, fun i h => ?_, ?_,
    fun ⟨ho, h⟩ => exec_wr_unmapped ho (regAt_gap h) data s, fun ho => exec_wr_misaligned ho data s,
    fun a _ hw => runAccess_narrow hw s⟩
  · obtain rfl : off = regOffset .cmd := h
    exact ⟨(exec_wr_cmd data s).trans (exec_decodeCmdWord data s).symm, _, exec_wr_cmd data s⟩
  · rw [exec_wr_of_offset (r := .frameLen) h (by decide), storeReg, extractLsb'_zero_eq_ofNat]
  · rw [exec_wr_of_offset (eq_regOffset_frame h) (by simp), storeReg, extractLsb'_zero_eq_ofNat]
  · rw [exec_wr_of_offset (r := .capCount) h (by decide), storeReg, extractLsb'_zero_eq_ofNat]
  · rw [exec_wr_of_offset (eq_regOffset_cap h) (by simp), storeReg, extractLsb'_zero_eq_ofNat]
  · rintro (h | h | h | h)
    · exact exec_wr_of_offset (r := .encStatus) h (by decide) data s
    · exact exec_wr_of_offset (r := .decStatus) h (by decide) data s
    · exact exec_wr_of_offset (r := .resBits) h (by decide) data s
    · exact exec_wr_of_offset (r := .resValue) h (by decide) data s

/-! ### NOP and the reserved commands -/

/-- A command word whose OPCODE is neither ENCODE's nor DECODE's changes nothing (42 R142, R143). -/
theorem runCommand_eq_self {v : Word} (h1 : opcodeOf v ≠ 0x01#8) (h2 : opcodeOf v ≠ 0x02#8) (s : State) :
    runCommand v s = s := by
  simpa [h1, h2] using runCommand_cases v s

/-- Settles O17: the two instructions' meanings are the identity, and a word of any other OPCODE than 1 and 2 runs no
command, decoded or written to CMD. -/
theorem nopAndReservedChangeNothing : Obligations.NopAndReservedChangeNothing := by
  refine ⟨fun ign s => rfl, fun opcode ign s => rfl, fun v s hv => ?_⟩
  rw [← opcodeOf_toNat] at hv
  have hrun : runCommand v s = s := runCommand_eq_self (by bv_omega) (by bv_omega) s
  exact ⟨(exec_decodeCmdWord v s).trans (congrArg _ hrun), (exec_wr_cmd v s).trans (congrArg _ hrun)⟩

end Sys2Proof.Machine
end

