-- ==== Sys2Proof/Proofs/FirstFailure.lean ====
section
/-! PROOFS. The first failing check of a decode is the one reported (60 R157): the scan passes over good bits and stops at
the first bad one. -/

namespace Sys2Proof.Machine

/-! ### The scan up to the first bad bit -/

/-- The scan passes over first bits whose marks are in their band and whose spaces are classifiable (41 R115). -/
theorem scanBits_skip_good {T : Nat} {c : List Dur} {bits : BitVec 7} {acc : Word} {i : Nat} (k : Nat)
    (hgood : ∀ j < i, inBand T (durAt c (3 + 2 * j)) 550 = true ∧ classify T (durAt c (4 + 2 * j)) ≠ none) :
    ∃ v, scanBits T c bits 0 (i + k) acc = scanBits T c bits i k v := by
  induction i generalizing k with
  | zero => exact ⟨acc, by rw [Nat.zero_add]⟩
  | succ i ih =>
    obtain ⟨v, hv⟩ := ih (k + 1) fun j hj => hgood j (by omega)
    obtain ⟨hmark, hspace⟩ := hgood i (by omega)
    obtain ⟨b, hb⟩ := Option.ne_none_iff_exists'.1 hspace
    rw [scanBits_succ, if_pos hmark, hb] at hv
    exact ⟨_, by rw [Nat.add_right_comm i 1 k]; exact hv⟩

/-- A scan that comes to a mark out of its band stops there (41 R115). -/
theorem scanBits_bitMark {T : Nat} {c : List Dur} {bits : BitVec 7} {acc : Word} {i k : Nat}
    (hmark : inBand T (durAt c (3 + 2 * i)) 550 = false) :
    scanBits T c bits i (k + 1) acc = .fail .bitMark (BitVec.ofNat 8 (3 + 2 * i)) := by
  rw [scanBits_succ, if_neg (Bool.eq_false_iff.1 hmark)]

/-- A scan that comes to an unclassifiable space after a good mark stops there (41 R115). -/
theorem scanBits_bitSpace {T : Nat} {c : List Dur} {bits : BitVec 7} {acc : Word} {i k : Nat}
    (hmark : inBand T (durAt c (3 + 2 * i)) 550 = true) (hspace : classify T (durAt c (4 + 2 * i)) = none) :
    scanBits T c bits i (k + 1) acc = .fail .bitSpace (BitVec.ofNat 8 (4 + 2 * i)) := by
  rw [scanBits_succ, if_pos hmark, hspace]

/-- A decode that passes the gate, the header and the bits below `i` is the scan from bit `i` on (41 R113 to R115). -/
theorem decodePulses_eq_scanBits {T : Nat} {c : List Dur} {n i : Nat} (hg : gate c.length = some n)
    (h1 : inBand T (durAt c 1) 4400 = true) (h2 : inBand T (durAt c 2) 4400 = true) (hi : i < 32)
    (hgood : ∀ j < i, inBand T (durAt c (3 + 2 * j)) 550 = true ∧ classify T (durAt c (4 + 2 * j)) ≠ none) :
    ∃ k v, decodePulses T c = scanBits T c (BitVec.ofNat 7 n) i (k + 1) v := by
  obtain ⟨k, hk⟩ : ∃ k, 32 = i + (k + 1) := ⟨31 - i, by omega⟩
  obtain ⟨v, hv⟩ := scanBits_skip_good (bits := BitVec.ofNat 7 n) (acc := 0#32) (k + 1) hgood
  rw [← hk] at hv
  exact ⟨k, v, by rw [decodePulses_of_gate_some T hg, if_pos h1, if_pos h2, hv]⟩

/-- Settles O33: the gate and the header checks come in the order of the decode, and the scan passes over the bits below
`i` and stops at bit `i`. -/
theorem firstFailureIsReported : Obligations.FirstFailureIsReported := by
  intro T c mark bit
  refine ⟨decodePulses_of_gate_none T, fun hgate => ?_⟩
  obtain ⟨n, hg⟩ := Option.ne_none_iff_exists'.1 hgate
  refine ⟨fun h1 => ?_, fun h1 h2 => ?_, fun h1 h2 i hi hgood => ?_⟩
  · exact (decodePulses_of_gate_some T hg).trans (if_neg (Bool.eq_false_iff.1 h1))
  · exact (decodePulses_of_gate_some T hg).trans ((if_pos h1).trans (if_neg (Bool.eq_false_iff.1 h2)))
  · obtain ⟨k, v, hscan⟩ := decodePulses_eq_scanBits hg h1 h2 hi hgood
    rw [hscan]
    exact ⟨scanBits_bitMark, scanBits_bitSpace⟩

end Sys2Proof.Machine
end

