-- ==== Sys2Proof/Proofs/HostSteps.lean ====
section
/-! PROOFS. The step of one turn, for each turn and each kind of program line (20 R60, 42 R145): which instruction it runs and
on which state. -/

namespace Sys2Proof.Machine

/-! ### The host's turn by its next line -/

/-- A POLL whose masked result equals the value moves on (30 R80). -/
theorem pollDone_of_eq {mask value : Word} {rest : List HostLine} {s : State} (h : s.busData &&& mask = value) :
    pollDone mask value rest s = { s with program := rest } := if_pos h

/-- A POLL whose masked result is not the value stays at its line (30 R80). -/
theorem pollDone_of_ne {mask value : Word} {rest : List HostLine} {s : State} (h : s.busData &&& mask ≠ value) :
    pollDone mask value rest s = s := if_neg h

section HostTurn
variable {s : State} {rest : List HostLine} (hn : nextTurn s = .host)
include hn

/-- On the host's turn with a host-operation word as its next line, the step runs the word with turn and line used up. -/
theorem step_how {w : HowWord} (hp : s.program = .how w :: rest) : step s = runWord (.how w) (afterFetch s rest) := by
  have hpop : (popSchedule s).program = .how w :: rest := hp
  simp only [step, hn, takeTurn, hostTurn, hpop, afterFetch]

/-- On the host's turn with a command word as its next line, the step is the write of the word to CMD (42 R144). -/
theorem step_cmd {w : Word} (hp : s.program = .cmd w :: rest) :
    step s = .next (runCommand w (afterFetch s rest)) := by
  have hpop : (popSchedule s).program = .cmd w :: rest := hp
  rw [← exec_decodeCmdWord]
  simp only [step, hn, takeTurn, hostTurn, hpop, afterFetch]
  rfl

/-- On the host's turn at a POLL of an aligned offset, the step is one RD of it and then the comparison (30 R80). -/
theorem step_poll {off : Off} {mask value : Word} (hp : s.program = .poll off mask value :: rest)
    (ho : offAligned off = true) :
    step s = .next (pollDone mask value rest { popSchedule s with busData := busRead off s }) := by
  have hpop : (popSchedule s).program = .poll off mask value :: rest := hp
  simp only [step, hn, takeTurn, hostTurn, hpop, exec_rd ho]
  rfl

end HostTurn

/-! ### The encoder's turn and the emitter's time -/

/-- The encoder's turn with BUSY = 1 and the emitter ready hands the offered symbol over (40 R94). -/
theorem step_handover {s : State} {y : Symbol} (hn : nextTurn s = .encoder) (hb : s.encBusy = true) (hr : s.emLeft = 0)
    (hy : s.encSeq[s.encIdx]? = some (symbolWord y)) :
    step s = .next (emitterAccept y (advanceEncoder (popSchedule s))) := by
  rw [← exec_symbol]
  simp only [step, hn, takeTurn, encoderTurn, symValid, symReady, symData, popSchedule_encBusy, popSchedule_emLeft,
    popSchedule_encSeq, popSchedule_encIdx, hb, hr, hy, decode_symbolWord]
  rfl

/-- The encoder's turn passes where the hand-over is not enabled (log 1). -/
theorem step_encoder_not_enabled {s : State} (hn : nextTurn s = .encoder) (h : s.encBusy = false ∨ s.emLeft ≠ 0) :
    step s = .next (popSchedule s) := by
  have henabled : (symValid (popSchedule s) && symReady (popSchedule s)) = false := by
    rcases h with h | h <;> simp [symValid, symReady, h]
  simp only [step, hn, takeTurn, encoderTurn, henabled]
  rfl

theorem step_elapse {s : State} {us : Nat} (hn : nextTurn s = .elapse us) :
    step s = .next (emitterElapse us (popSchedule s)) := by
  simp only [step, hn, takeTurn]

/-! ### The obligations -/

/-- A word that decodes runs its instruction. -/
theorem runWord_of_decode {f : InstrWord} {i : Instr} (h : decode f = .ok i) (s : State) : runWord f s = exec i s := by
  simp only [runWord, h]

section Decoded
variable {s : State} {i : Instr} {rest : List HostLine}

/-- A host-operation word that decodes is run as its instruction (42 R145). -/
theorem step_how_of_decode {w : HowWord} (hn : nextTurn s = .host) (hp : s.program = .how w :: rest)
    (hd : decode (.how w) = .ok i) : step s = exec i (afterFetch s rest) :=
  (step_how hn hp).trans (runWord_of_decode hd _)

/-- A command word is run as the instruction it decodes to (42 R144). -/
theorem step_cmd_of_decode {w : Word} (hn : nextTurn s = .host) (hp : s.program = .cmd w :: rest)
    (hd : decode (.cmd w) = .ok i) : step s = exec i (afterFetch s rest) := by
  cases hd
  exact (step_cmd hn hp).trans (exec_decodeCmdWord w _).symm

/-- An offered word that decodes is run as its instruction, with the encoder advanced (40 R94). -/
theorem step_sym_of_decode {w : SymWord} (hn : nextTurn s = .encoder) (hb : s.encBusy = true) (hr : s.emLeft = 0)
    (hw : s.encSeq[s.encIdx]? = some w) (hd : decode (.sym w) = .ok i) :
    step s = exec i (advanceEncoder (popSchedule s)) := by
  obtain ⟨y, rfl, rfl⟩ := decodeSymWord_ok hd
  exact (step_handover hn hb hr hw).trans (exec_symbol y _).symm

end Decoded

/-- Settles O8: the step of each turn is the run of its word, and the word decodes to `i`. -/
theorem stepRunsDecodedInstruction : Obligations.StepRunsDecodedInstruction := fun _ _ _ =>
  ⟨fun _ => step_how_of_decode, fun _ => step_cmd_of_decode, fun _ => step_sym_of_decode⟩

/-- Settles O9: the placed word's turn comes next, and that turn and the host's line are what the step uses up. -/
theorem placedWordRunsNext : Obligations.PlacedWordRunsNext := fun _ _ =>
  ⟨fun _ => step_how_of_decode rfl rfl, fun _ => step_cmd_of_decode rfl rfl,
    fun _ => step_sym_of_decode rfl rfl rfl rfl⟩

/-- Settles O40, by the three things the passing of time can do at the emitter. -/
theorem emitterTime : Obligations.EmitterTime := by
  intro s us hn
  refine ⟨_, step_elapse hn, ?_⟩
  have htime := emitterElapse_cases us (popSchedule s)
  simp only [popSchedule_emLeft] at htime
  rcases htime with ⟨h0, he⟩ | ⟨hlt, he⟩ | ⟨h0, hle, he⟩ <;> rw [he]
  · exact ⟨fun h => by omega, fun _ => by simp [symReady, h0], fun _ => rfl, rfl⟩
  · exact ⟨fun _ => ⟨rfl, by simp [symReady]; omega, rfl⟩, fun h => by omega, fun _ => rfl, rfl⟩
  · exact ⟨fun h => by omega, fun _ => rfl, fun h => absurd h h0, rfl⟩

/-- Settles O41: the step's RD is that of the POLL's offset, and `pollDone` compares what it returned. -/
theorem pollRepeatsItsRead : Obligations.PollRepeatsItsRead := by
  intro s off mask value rest hn hp ho
  have ha := (offAligned_iff off).2 ho
  refine ⟨_, _, step_poll hn hp ha, exec_rd ha s, ?_⟩
  by_cases heq : busRead off s &&& mask = value
  · rw [pollDone_of_eq heq]
    exact ⟨rfl, fun _ => rfl, fun hne => absurd heq hne, rfl⟩
  · rw [pollDone_of_ne heq]
    exact ⟨rfl, fun h => absurd h heq, fun _ => rfl, rfl⟩

/-- Settles O15: an RD changes only what the host has read, and that is no register, so the second RD reads the same word. -/
theorem readsHaveNoSideEffects : Obligations.ReadsHaveNoSideEffects := by
  intro off s ha
  refine ⟨_, exec_rd ha s, rfl, ?_⟩
  rw [exec_rd ha]
  rfl

/-- Settles O39: the symbol's instruction is the emitter's acceptance of it, case by case of 30 R76. -/
theorem emitterContract : Obligations.EmitterContract := fun s d =>
  ⟨exec_symbol (.carrier d) s, exec_symbol (.mark d) s, exec_symbol (.space d) s⟩

end Sys2Proof.Machine
end

