-- ==== Sys2Proof/Proofs/Encoding.lean ====
section
/-! PROOFS. The decoder and the encoder against each other and against the opcode table (30 R70, R71, R74, R79): the round
trips, the words of each format by their fields, and the rows' masks and patterns. -/

namespace Sys2Proof.Machine

/-! ### Decoding the word of an instruction -/

/-- OPCODE is reserved when it is none of the three defined ones (30 R71, R72). -/
theorem reservedOpcode_iff_ne (opcode : BitVec 8) :
    reservedOpcode opcode = true ↔ opcode ≠ 0x00#8 ∧ opcode ≠ 0x01#8 ∧ opcode ≠ 0x02#8 := by
  rw [reservedOpcode_iff]
  bv_omega

/-- A host-operation word with OP 0, no gap, an aligned OFF and no DATA is the RD of its OFF (30 R79). -/
theorem decode_how_rd {w : HowWord} (hop : w.extractLsb' 62 2 = 0b00#2) (hgap : w.extractLsb' 43 19 = 0#19)
    (hoff : offAligned (w.extractLsb' 32 11) = true) (hdata : w.extractLsb' 0 32 = 0#32) :
    decode (.how w) = .ok (.rd (w.extractLsb' 32 11)) := by
  simp [decode, decodeHowWord, hop, hgap, hoff, hdata]

/-- A host-operation word with OP 1, no gap and an aligned OFF is the WR of its OFF and DATA (30 R79). -/
theorem decode_how_wr {w : HowWord} (hop : w.extractLsb' 62 2 = 0b01#2) (hgap : w.extractLsb' 43 19 = 0#19)
    (hoff : offAligned (w.extractLsb' 32 11) = true) :
    decode (.how w) = .ok (.wr (w.extractLsb' 32 11) (w.extractLsb' 0 32)) := by
  simp [decode, decodeHowWord, hop, hgap, hoff]

/-- Settles O1: each row's word gives back the fields it was laid out from. -/
theorem decodeAfterEncode : Obligations.DecodeAfterEncode := by
  intro i hi
  cases i with
  | nop ign => simp [encode, decode, decodeCmdWord]
  | encodeCmd ign => simp [encode, decode, decodeCmdWord]
  | decodeCmd ign => simp [encode, decode, decodeCmdWord]
  | reservedCmd opcode ign =>
    obtain ⟨h0, h1, h2⟩ := (reservedOpcode_iff_ne opcode).1 hi
    simp [encode, decode, decodeCmdWord, h0, h1, h2]
  | rd off => have ha : offAligned off = true := hi; simp [encode, decode, decodeHowWord, ha]
  | wr off data => have ha : offAligned off = true := hi; simp [encode, decode, decodeHowWord, ha]
  | carrier arg => exact decode_symbolWord (.carrier arg)
  | mark arg => exact decode_symbolWord (.mark arg)
  | space arg => exact decode_symbolWord (.space arg)

/-! ### Encoding the instruction of a word -/

theorem encode_symbolInstr (y : Symbol) : encode (symbolInstr y) = .sym (symbolWord y) := by cases y <;> rfl

theorem wellFormed_symbolInstr (y : Symbol) : WellFormed (symbolInstr y) = true := by cases y <;> rfl

/-- Every command word is that of the well-formed instruction it decodes to (30 R70, R71). -/
theorem encode_decodeCmdWord (w : Word) :
    WellFormed (decodeCmdWord w) = true ∧ encode (decodeCmdWord w) = .cmd w := by
  have hw := cmdWord_of_fields w
  simp only [decodeCmdWord]
  split
  · next h => rw [h] at hw; exact ⟨rfl, congrArg _ hw⟩
  · next h0 =>
    split
    · next h => rw [h] at hw; exact ⟨rfl, congrArg _ hw⟩
    · next h1 =>
      split
      · next h => rw [h] at hw; exact ⟨rfl, congrArg _ hw⟩
      · next h2 => exact ⟨(reservedOpcode_iff_ne _).2 ⟨h0, h1, h2⟩, congrArg _ hw⟩

/-- Settles O2: a word that decodes is laid out from the fields of its instruction. -/
theorem encodeAfterDecode : Obligations.EncodeAfterDecode := by
  intro f i h
  cases f with
  | cmd w => cases h; exact encode_decodeCmdWord w
  | how w =>
    obtain ⟨off, data, ho, ⟨rfl, rfl⟩ | ⟨rfl, rfl⟩⟩ := decodeHowWord_ok h
    · exact ⟨ho, rfl⟩
    · exact ⟨ho, rfl⟩
  | sym w =>
    obtain ⟨y, rfl, rfl⟩ := decodeSymWord_ok h
    exact ⟨wellFormed_symbolInstr y, encode_symbolInstr y⟩

/-! ### Host-operation words by their fields as numbers -/

/-- A field of a word is zero-extended from its bits as a number. -/
theorem extractLsb'_eq_ofNat {n : Nat} (w : BitVec n) (start len : Nat) :
    w.extractLsb' start len = BitVec.ofNat len (w.toNat / 2 ^ start % 2 ^ len) := by
  rw [← field_toNat, BitVec.ofNat_toNat, BitVec.setWidth_eq]

/-- A word whose fields break a constraint of 30 R79 decodes to no instruction. -/
theorem decode_how_error {w : HowWord}
    (h : 2 ≤ w.toNat / 2 ^ 62 ∨ w.toNat / 2 ^ 43 % 2 ^ 19 ≠ 0 ∨ w.toNat / 2 ^ 32 % 2 ^ 11 % 4 ≠ 0 ∨
      (w.toNat / 2 ^ 62 = 0 ∧ w.toNat % 2 ^ 32 ≠ 0)) : ∃ r, decode (.how w) = .error r := by
  cases hd : decode (.how w) with
  | error r => exact ⟨r, rfl⟩
  | ok i =>
    exfalso
    obtain ⟨off, data, ho, ⟨-, rfl⟩ | ⟨-, rfl⟩⟩ := decodeHowWord_ok hd <;>
    · rw [offAligned_iff] at ho
      rw [howWord_toNat] at h
      simp only [BitVec.toNat_ofNat] at h
      omega

/-- Settles O4: the fields as numbers are the decoder's fields, and a word that decodes is laid out under the constraints of
30 R79. -/
theorem hostOperationWords : Obligations.HostOperationWords := by
  intro w s rest op gap off data
  have hdataField : w.extractLsb' 0 32 = BitVec.ofNat 32 data := by
    rw [extractLsb'_eq_ofNat, Nat.pow_zero, Nat.div_one]
  have hopField : w.extractLsb' 62 2 = BitVec.ofNat 2 op := by
    rw [extractLsb'_eq_ofNat, Nat.mod_eq_of_lt (by omega)]
  have hgapField : w.extractLsb' 43 19 = BitVec.ofNat 19 gap := extractLsb'_eq_ofNat w 43 19
  have hoffField : w.extractLsb' 32 11 = BitVec.ofNat 11 off := extractLsb'_eq_ofNat w 32 11
  have haligned (h : off % 4 = 0) : offAligned (w.extractLsb' 32 11) = true := by rwa [offAligned_iff, field_toNat]
  refine ⟨fun ⟨hop, hgap, hoff, hdata⟩ => ?_, fun ⟨hop, hgap, hoff⟩ => ?_, fun hbad hn hp => ?_⟩
  · rw [hop] at hopField
    rw [hgap] at hgapField
    rw [hdata] at hdataField
    rw [← hoffField]
    exact decode_how_rd hopField hgapField (haligned hoff) hdataField
  · rw [hop] at hopField
    rw [hgap] at hgapField
    rw [← hoffField, ← hdataField]
    exact decode_how_wr hopField hgapField (haligned hoff)
  · obtain ⟨r, hr⟩ := decode_how_error hbad
    exact ⟨r, by rw [step_how hn hp, runWord, hr]⟩

/-! ### Emitter symbols by KIND -/

/-- A word with KIND 0b11 is rejected (30 R74). -/
theorem decode_sym_reserved {w : SymWord} (h : w.extractLsb' 16 2 = 0b11#2) : decode (.sym w) = .error .symKind := by
  simp [decode, decodeSymWord, h]

/-- Settles O5: a word is its KIND and its ARG. -/
theorem symbolKinds : Obligations.SymbolKinds := by
  intro w kind arg
  have hkind : w.extractLsb' 16 2 = BitVec.ofNat 2 kind := by
    rw [extractLsb'_eq_ofNat, Nat.mod_eq_of_lt (by omega)]
  have hw : symWord (BitVec.ofNat 2 kind) arg = w := by
    rw [← hkind]; exact symWord_of_fields w
  refine ⟨fun h => ?_, fun h => ?_, fun h => ?_, fun h => ?_⟩
  · rw [← hw, h]; exact decode_symbolWord (.carrier arg)
  · rw [← hw, h]; exact decode_symbolWord (.mark arg)
  · rw [← hw, h]; exact decode_symbolWord (.space arg)
  · rw [h] at hkind; exact decode_sym_reserved hkind

/-- Settles O6: each of the nine words is a closed term, and the decoder computes its instruction. -/
theorem writtenOutWordsDecode : Obligations.WrittenOutWordsDecode := by
  unfold Obligations.WrittenOutWordsDecode
  decide

/-! ### The rows of the opcode table -/

/-- A word that decodes belongs to its instruction's row. -/
theorem inRow_of_decode {f : InstrWord} {i : Instr} (h : decode f = .ok i) : InRow f (rowOf i) := by
  obtain ⟨hwf, rfl⟩ := encodeAfterDecode f i h
  cases i with
  | nop ign => exact Laws.EncodesIntoItsRow.nop ign hwf
  | encodeCmd ign => exact Laws.EncodesIntoItsRow.encodeCmd ign hwf
  | decodeCmd ign => exact Laws.EncodesIntoItsRow.decodeCmd ign hwf
  | reservedCmd opcode ign => exact Laws.EncodesIntoItsRow.reservedCmd opcode ign hwf
  | rd off => exact Laws.EncodesIntoItsRow.rd off hwf
  | wr off data => exact Laws.EncodesIntoItsRow.wr off data hwf
  | carrier arg => exact Laws.EncodesIntoItsRow.carrier arg hwf
  | mark arg => exact Laws.EncodesIntoItsRow.mark arg hwf
  | space arg => exact Laws.EncodesIntoItsRow.space arg hwf

theorem rowOf_mem_opcodeTable (i : Instr) : rowOf i ∈ opcodeTable := by
  cases i <;> simp [rowOf, opcodeTable]

/-- Where a row's mask covers a field, a word of the row has the pattern's field. -/
theorem field_eq_of_mask {n start len : Nat} {w m p : BitVec n} (h : w.toNat &&& m.toNat = p.toNat)
    (hm : m.extractLsb' start len = BitVec.allOnes len) : w.extractLsb' start len = p.extractLsb' start len := by
  have hand : w &&& m = p := BitVec.eq_of_toNat_eq (by rw [BitVec.toNat_and, h])
  rw [← hand, BitVec.extractLsb'_and, hm, BitVec.and_allOnes]

/-- The two low bits of OFF are bits 33:32 of the word (30 R79). -/
theorem offAligned_off_iff (w : HowWord) : offAligned (w.extractLsb' 32 11) = true ↔ w.extractLsb' 32 2 = 0#2 := by
  rw [offAligned_iff, ← BitVec.toNat_inj, field_toNat, field_toNat, BitVec.toNat_ofNat]
  omega

section Rows
variable {f : InstrWord} {r : Row}

/-- Only command words belong to a row of 32 bits. -/
theorem cmd_of_inRow (h : InRow f r) (hw : r.width = 32) : ∃ w, f = .cmd w ∧ w.toNat &&& r.mask = r.pattern := by
  obtain ⟨hwidth, hbits⟩ := h
  cases f with
  | cmd w => exact ⟨w, rfl, hbits⟩
  | how w | sym w => rw [hw] at hwidth; cases hwidth

/-- Only host-operation words belong to a row of 64 bits. -/
theorem how_of_inRow (h : InRow f r) (hw : r.width = 64) : ∃ w, f = .how w ∧ w.toNat &&& r.mask = r.pattern := by
  obtain ⟨hwidth, hbits⟩ := h
  cases f with
  | how w => exact ⟨w, rfl, hbits⟩
  | cmd w | sym w => rw [hw] at hwidth; cases hwidth

/-- Only symbols belong to a row of 18 bits. -/
theorem sym_of_inRow (h : InRow f r) (hw : r.width = 18) : ∃ w, f = .sym w ∧ w.toNat &&& r.mask = r.pattern := by
  obtain ⟨hwidth, hbits⟩ := h
  cases f with
  | sym w => exact ⟨w, rfl, hbits⟩
  | cmd w | how w => rw [hw] at hwidth; cases hwidth

end Rows

/-- OPCODE of a word of a command's row (30 R71). -/
theorem opcodeOf_of_mask {w : Word} {p : Word} (h : w.toNat &&& 0x000000FF = p.toNat) : opcodeOf w = opcodeOf p :=
  field_eq_of_mask (m := 0x000000FF#32) h (by decide)

/-- A word of RD's row is an RD (30 R79). -/
theorem decode_of_rd_row {w : HowWord} (h : w.toNat &&& 0xFFFFF803FFFFFFFF = 0x0000000000000000) :
    decode (.how w) = .ok (.rd (w.extractLsb' 32 11)) := by
  have field (start len : Nat) := field_eq_of_mask (start := start) (len := len) (m := 0xFFFFF803FFFFFFFF#64) (p := 0#64) h
  exact decode_how_rd (field 62 2 (by decide)) (field 43 19 (by decide))
    ((offAligned_off_iff w).2 (field 32 2 (by decide))) (field 0 32 (by decide))

/-- A word of WR's row is a WR (30 R79). -/
theorem decode_of_wr_row {w : HowWord} (h : w.toNat &&& 0xFFFFF80300000000 = 0x4000000000000000) :
    decode (.how w) = .ok (.wr (w.extractLsb' 32 11) (w.extractLsb' 0 32)) := by
  have field (start len : Nat) :=
    field_eq_of_mask (start := start) (len := len) (m := 0xFFFFF80300000000#64) (p := 0x4000000000000000#64) h
  exact decode_how_wr (field 62 2 (by decide)) (field 43 19 (by decide))
    ((offAligned_off_iff w).2 (field 32 2 (by decide)))

/-- A word of a symbol's row is the word of the KIND in the row's pattern (30 R74). -/
theorem sym_of_mask {w : SymWord} {kind : BitVec 2} (h : w.toNat &&& 0x30000 = (symWord kind 0#16).toNat) :
    w = symWord kind (w.extractLsb' 0 16) := by
  have hkind := field_eq_of_mask (start := 16) (len := 2) (m := 0x30000#18) h (by decide)
  rw [symWord_kind] at hkind
  rw [← hkind]
  exact (symWord_of_fields w).symm

/-- Settles O7: a row's mask covers the fields that the decoder tests, and its pattern holds the values it tests for. -/
theorem tableRowsAreTheDecoder : Obligations.TableRowsAreTheDecoder := by
  refine ⟨fun f i h => ⟨inRow_of_decode h, rowOf_mem_opcodeTable i⟩, fun f r hr hname hin => ?_⟩
  simp only [opcodeTable, List.cons_append, List.nil_append, List.mem_cons, List.not_mem_nil, or_false] at hr
  rcases hr with rfl | rfl | rfl | rfl | rfl | rfl | rfl | rfl | rfl
  · obtain ⟨w, rfl, hw⟩ := cmd_of_inRow hin rfl
    exact ⟨_, decode_cmd_nop (opcodeOf_of_mask (p := 0x00#32) hw), rfl⟩
  · obtain ⟨w, rfl, hw⟩ := cmd_of_inRow hin rfl
    exact ⟨_, decode_cmd_encode (opcodeOf_of_mask (p := 0x01#32) hw), rfl⟩
  · obtain ⟨w, rfl, hw⟩ := cmd_of_inRow hin rfl
    exact ⟨_, decode_cmd_decode (opcodeOf_of_mask (p := 0x02#32) hw), rfl⟩
  · exact absurd rfl hname
  · obtain ⟨w, rfl, hw⟩ := how_of_inRow hin rfl
    exact ⟨_, decode_of_rd_row hw, rfl⟩
  · obtain ⟨w, rfl, hw⟩ := how_of_inRow hin rfl
    exact ⟨_, decode_of_wr_row hw, rfl⟩
  · obtain ⟨w, rfl, hw⟩ := sym_of_inRow hin rfl
    rw [sym_of_mask (kind := 0b00#2) hw]
    exact ⟨_, decode_symbolWord (.carrier _), rfl⟩
  · obtain ⟨w, rfl, hw⟩ := sym_of_inRow hin rfl
    rw [sym_of_mask (kind := 0b01#2) hw]
    exact ⟨_, decode_symbolWord (.mark _), rfl⟩
  · obtain ⟨w, rfl, hw⟩ := sym_of_inRow hin rfl
    rw [sym_of_mask (kind := 0b10#2) hw]
    exact ⟨_, decode_symbolWord (.space _), rfl⟩

end Sys2Proof.Machine
end

