-- ==== Sys2Proof/Proofs/Registers.lean ====
section
/-! PROOFS. The register window: its map (10 R20), what a write leaves in the register written and in every other (20 R59),
and the frame of WR (20 R55). -/

namespace Sys2Proof.Machine

/-- Settles O10: every register stands at its offset, and an offset has no other register than that. -/
theorem registerMap : Obligations.RegisterMap :=
  ⟨⟨regAt_regOffset .cmd, regAt_regOffset .encStatus, regAt_regOffset .decStatus, regAt_regOffset .frameLen,
      regAt_regOffset .capCount, regAt_regOffset .resBits, regAt_regOffset .resValue⟩,
    fun i => regAt_regOffset (.frame i), fun i => regAt_regOffset (.cap i),
    fun _ r => ⟨fun h => (regOffset_of_regAt h).symm, fun h => h ▸ regAt_regOffset r⟩⟩

/-- Distinct registers stand at distinct offsets (10 R20). -/
theorem regOffset_injective {r q : Reg} (h : regOffset r = regOffset q) : r = q := by
  simpa using congrArg regAt h

/-- An RD at a register's offset returns the register's word. -/
theorem exec_rd_regOffset (r : Reg) (s : State) :
    exec (.rd (regOffset r)) s = .next { s with busData := readReg r s } := by
  rw [exec_rd (offAligned_regOffset r), busRead_regOffset]

/-- A stored field reads back as the low bits of the data (42 R141, 10 R40). -/
theorem setWidth_extractLsb'_toNat (v : Word) {n : Nat} (hn : n ≤ 32) :
    ((v.extractLsb' 0 n).setWidth 32).toNat = v.toNat % 2 ^ n := by
  rw [BitVec.toNat_setWidth_of_le hn, field_toNat, Nat.pow_zero, Nat.div_one]

/-- Settles O14: the read goes to the state the store left, where every other register reads as before. -/
theorem readAfterWrite : Obligations.ReadAfterWrite := by
  intro r q v s hr
  refine ⟨_, _, exec_wr_of_offset rfl hr v s, exec_rd_regOffset q _, fun hne => readReg_storeReg_of_ne hne v s, ?_⟩
  rintro rfl
  cases q with
  | cmd => exact absurd rfl hr
  | encStatus | decStatus | resBits | resValue => rfl
  | frameLen | capCount => exact setWidth_extractLsb'_toNat v (by decide)
  | frame i => simpa [readReg, storeReg] using setWidth_extractLsb'_toNat v (n := 8) (by decide)
  | cap i => simpa [readReg, storeReg] using setWidth_extractLsb'_toNat v (n := 16) (by decide)

/-- A store changes nothing but the operand fields (42 R141). -/
theorem storeReg_frame_eq (r : Reg) (v : Word) (s : State) :
    storeReg r v s = { s with
      frameLen := (storeReg r v s).frameLen, frame := (storeReg r v s).frame, capCount := (storeReg r v s).capCount
      cap := (storeReg r v s).cap } := by
  cases r <;> rfl

/-- Settles O16: the WR stores to one register or, at an unmapped offset, to none. -/
theorem wrFrame : Obligations.WrFrame := by
  intro off data s ha hcmd
  refine ⟨_, exec_wr ha data s, ?_⟩
  rcases busWrite_cases off data s with ⟨hoff, -⟩ | ⟨r, -, rfl, hw⟩ | ⟨-, hw⟩
  · exact absurd hoff hcmd
  · rw [hw]
    exact ⟨fun q hq => readReg_storeReg_of_ne (fun h => hq (congrArg regOffset h)) data s, storeReg_frame_eq r data s⟩
  · rw [hw]
    exact ⟨fun q _ => rfl, rfl⟩

/-! ### The round trip through the registers -/

/-- A byte put after a word is the word shifted up by 8 and the byte (20 R58). -/
theorem setWidth_append_byte {n : Nat} (x : BitVec n) (b : Byte) :
    (x ++ b).setWidth 32 = x.setWidth 32 <<< 8 ||| b.setWidth 32 := by
  apply BitVec.eq_of_getLsbD_eq
  intro i hi
  by_cases h8 : i < 8
  · simp [BitVec.getLsbD_append, hi, h8]
  · simp [BitVec.getLsbD_append, hi, h8, BitVec.getLsbD_of_ge b i (by omega)]

/-- Four bytes side by side are the bytes shifted to their places (20 R58). -/
theorem append_bytes_eq_shifts (b0 b1 b2 b3 : Byte) :
    (b0 ++ b1 ++ b2 ++ b3 : Word) =
      b0.setWidth 32 <<< 24 ||| b1.setWidth 32 <<< 16 ||| b2.setWidth 32 <<< 8 ||| b3.setWidth 32 := by
  have h := setWidth_append_byte (b0 ++ b1 ++ b2) b3
  rw [BitVec.setWidth_eq] at h
  rw [h, setWidth_append_byte, setWidth_append_byte]
  simp only [BitVec.shiftLeft_or_distrib, ← BitVec.shiftLeft_add]

/-- Settles O36: the entries are the train's capture, the DECODE of it is the one of `roundTrip`, at the tolerance the state
holds, and `decodeCommand` says what its success writes. -/
theorem roundTripThroughRegisters : Obligations.RoundTripThroughRegisters := by
  intro s ign b0 b1 b2 b3 more g hf hcount hcap
  have hlen : (capture (train (b0 :: b1 :: b2 :: b3 :: more)) g).length = 16 * (4 + more.length) + 4 := by
    rw [capture_train_length]; simp only [List.length_cons]; omega
  obtain ⟨hok, -, -⟩ := decodeCommand ign s _ (hlen.trans hcount.symm) fun i hi => (hcap i (hlen ▸ hi)).symm
  rw [append_bytes_eq_shifts]
  exact hok _ _ (roundTrip b0 b1 b2 b3 more g s.tolPct.val hf (Nat.le_of_lt_succ s.tolPct.isLt))

end Sys2Proof.Machine
end

