-- ==== Sys2Proof/Proofs/TrainInFlight.lean ====
section
/-! PROOFS. A train in flight: what the hand-over does to the state (40 R94, R95), that nothing but a hand-over moves the
train (40 R96, 30 R75), and the race of an ENCODE with the last hand-over (60 R158). -/

namespace Sys2Proof.Machine

/-! ### The hand-over -/

/-- BUSY stays 1 until the last symbol is handed over (40 R95). -/
theorem advanceEncoder_encBusy {s : State} (hb : s.encBusy = true) :
    (advanceEncoder s).encBusy = decide (s.encIdx + 1 ≠ s.encSeq.length) := by
  rcases advanceEncoder_cases s with ⟨hlast, he⟩ | ⟨hmore, he⟩ <;> rw [he]
  · simp [hlast]
  · simp [hmore, hb]

/-- DONE rises with the last symbol and is otherwise left as it is (40 R95). -/
@[simp] theorem advanceEncoder_encDone (s : State) :
    (advanceEncoder s).encDone = (s.encDone || decide (s.encIdx + 1 = s.encSeq.length)) := by
  rcases advanceEncoder_cases s with ⟨hlast, he⟩ | ⟨hmore, he⟩ <;> rw [he]
  · simp [hlast]
  · simp [hmore]

/-- A hand-over changes the train's place, BUSY, DONE and the emitter, and nothing else (40 R94). -/
theorem handover_frame_eq (y : Symbol) (s : State) :
    let t := emitterAccept y (advanceEncoder s)
    t = { s with
      sent := t.sent, encIdx := t.encIdx, encBusy := t.encBusy, encDone := t.encDone
      emLine := t.emLine, emCarrier := t.emCarrier, emLeft := t.emLeft } := by
  rcases advanceEncoder_cases s with ⟨-, he⟩ | ⟨-, he⟩ <;> rw [he] <;> cases y <;> rfl

/-- Settles O22: an enabled turn is the hand-over of the offered symbol, and any other turn of the encoder passes. -/
theorem encoderHandover : Obligations.EncoderHandover := by
  intro s hn
  refine ⟨fun hb hr y hy => ⟨_, step_handover hn hb hr hy, ?_, ?_, ?_, ?_, handover_frame_eq y (popSchedule s)⟩,
    step_encoder_not_enabled hn⟩
  · simp
  · simp
  · exact (emitterAccept_encBusy _ _).trans (advanceEncoder_encBusy (s := popSchedule s) hb)
  · exact (emitterAccept_encDone _ _).trans (advanceEncoder_encDone (popSchedule s))

/-! ### What the steps leave alone -/

/-- The encoder's train, BUSY, DONE and the emitter stand in `t` as in `s`; ENC_STATUS.ERR, which a refused ENCODE writes,
is not among the fields. -/
structure SameEncoder (s t : State) : Prop where
  busy : t.encBusy = s.encBusy
  done : t.encDone = s.encDone
  seq : t.encSeq = s.encSeq
  idx : t.encIdx = s.encIdx
  sent : t.sent = s.sent
  line : t.emLine = s.emLine
  carrier : t.emCarrier = s.emCarrier
  left : t.emLeft = s.emLeft

/-- A refused ENCODE leaves the encoder as it is (40 R93). -/
theorem refuseEncode_sameEncoder (e : EncErr) (s : State) : SameEncoder s (refuseEncode e s) :=
  ⟨rfl, rfl, rfl, rfl, rfl, rfl, rfl, rfl⟩

/-- Of what the host can do, only an ENCODE touches the encoder or the emitter. -/
theorem HostEffect.sameEncoder {s t : State} {p : List HostLine} (he : HostEffect s p t) :
    SameEncoder s t ∨ t = runEncode (afterFetch s p) := by
  cases he with
  | encode _ => exact .inr rfl
  | nothing | decode _ | store _ _ _ _ | read _ => exact .inl (by constructor <;> simp [afterFetch])

/-- While a train is in flight the host's turn leaves the encoder and the emitter as they are: an ENCODE is refused (60
R156). -/
theorem HostEffect.sameEncoder_of_busy {s t : State} {p : List HostLine} (he : HostEffect s p t)
    (hb : s.encBusy = true) : SameEncoder s t := by
  refine he.sameEncoder.elim id fun ht => ?_
  rw [ht, runEncode_busy (s := afterFetch s p) hb]
  constructor <;> simp [afterFetch]

/-- While a train is in flight, a step other than a reset holds the train where it is, or it is the encoder's turn and hands
over the offered symbol (30 R75, 40 R96). -/
theorem step_of_busy {s t : State} (hb : s.encBusy = true) (h : step s = .next t) (hn : nextTurn s ≠ .reset) :
    (t.encBusy = true ∧ t.encSeq = s.encSeq ∧ t.encIdx = s.encIdx ∧ t.sent = s.sent) ∨
    (nextTurn s = .encoder ∧ s.emLeft = 0 ∧
      ∃ y, s.encSeq[s.encIdx]? = some (symbolWord y) ∧ t = emitterAccept y (advanceEncoder (popSchedule s))) := by
  rcases step_cases h with ⟨-, p, he⟩ | ⟨henc, ⟨-, rfl⟩ | ⟨-, hr, hy⟩⟩ | ⟨us, -, rfl⟩ | ⟨hreset, -⟩
  · have hsame := he.sameEncoder_of_busy hb
    exact .inl ⟨hsame.busy.trans hb, hsame.seq, hsame.idx, hsame.sent⟩
  · exact .inl ⟨hb, rfl, rfl, rfl⟩
  · exact .inr ⟨henc, hr, hy⟩
  · exact .inl ⟨by simp [hb], by simp, by simp, by simp⟩
  · exact absurd hreset hn

/-- Settles O24: the train is held, or the hand-over passes its next symbol, which completes it when it is the last. -/
theorem noCancellation : Obligations.NoCancellation := by
  intro s t hb h hn
  rcases step_of_busy hb h hn with ⟨hbusy, hseq, hidx, hsent⟩ | ⟨-, -, y, hy, rfl⟩
  · exact .inl ⟨hbusy, hseq, .inl ⟨hidx, hsent⟩⟩
  · have hbusy := advanceEncoder_encBusy (s := popSchedule s) hb
    by_cases hlast : s.encIdx + 1 = s.encSeq.length
    · exact .inr ⟨by simp [hbusy, hlast], by simp [hlast], by simp, by simp [hlast], _, hy, by simp⟩
    · exact .inl ⟨by simp [hbusy, hlast], by simp, .inr ⟨by simp, _, hy, by simp⟩⟩

/-- Settles O25: the offered symbol is that of the train held, or it is the one handed over. -/
theorem offeredSymbolIsHeld : Obligations.OfferedSymbolIsHeld := by
  intro s t hb h hn
  rcases step_of_busy hb h hn with ⟨hbusy, hseq, hidx, hsent⟩ | ⟨henc, hr, y, hy, rfl⟩
  · exact .inl ⟨hbusy, by rw [symData, symData, hseq, hidx], hsent⟩
  · exact .inr ⟨henc, by simp [symReady, hr], _, hy, by simp⟩

/-- Settles O27: the host's turn leaves a train in flight and its emitter alone, and the encoder's turn passes while the
emitter is not ready. -/
theorem unreadyEmitterHangs : Obligations.UnreadyEmitterHangs := by
  rintro s t hb hr (hn | hn) h
  · rcases step_cases h with ⟨-, p, he⟩ | ⟨henc, -⟩ | ⟨us, helapse, -⟩ | ⟨hreset, -⟩
    · have hsame := he.sameEncoder_of_busy hb
      exact ⟨hsame.busy.trans hb, hsame.left, hsame.idx, hsame.seq, hsame.sent⟩
    · rw [hn] at henc; cases henc
    · rw [hn] at helapse; cases helapse
    · rw [hn] at hreset; cases hreset
  · rw [step_encoder_not_enabled hn (.inr hr)] at h
    cases h
    exact ⟨hb, rfl, rfl, rfl, rfl⟩

/-! ### An ENCODE and the last hand-over -/

section Race
variable {s : State} {w : Word} {rest : List HostLine} {later : List Turn} (hb : s.encBusy = true)
  (hlast : s.encIdx + 1 = s.encSeq.length) (hy : s.encSeq[s.encIdx]? = some (symbolWord (.space 0)))
  (hr : s.emLeft = 0) (hp : s.program = .cmd w :: rest) (hop : opcodeOf w = 0x01#8)
include hb hlast hy hr hp hop

/-- An ENCODE before the last hand-over meets BUSY = 1 and is refused, and the train completes (60 R158). -/
theorem encode_before_last_handover (hs : s.schedule = .host :: .encoder :: later) :
    ∃ t : State, core.run 2 s = .next t ∧
      t.encBusy = false ∧ t.encDone = true ∧ t.encErr = .busy ∧ t.program = rest ∧ t.schedule = later := by
  have hrefused : step s = .next (refuseEncode .busy (afterFetch s rest)) := by
    rw [step_cmd (by rw [nextTurn, hs]) hp, runCommand_encode hop, runEncode_busy (s := afterFetch s rest) hb]
  obtain ⟨u, hu⟩ : ∃ u, u = refuseEncode .busy (afterFetch s rest) := ⟨_, rfl⟩
  rw [← hu] at hrefused
  have hturn : nextTurn u = .encoder := by simp [nextTurn, hu, afterFetch, hs]
  obtain ⟨t, hstep, -, -, hbusy, hdone, hframe⟩ :=
    (encoderHandover u hturn).1 (by simpa [hu, afterFetch] using hb) (by simpa [hu, afterFetch] using hr) (.space 0)
      (by simpa [hu, afterFetch] using hy)
  refine ⟨t, (run_next hrefused).trans (run_next hstep), ?_, ?_, ?_, ?_, ?_⟩
  · simp [hbusy, hu, afterFetch, hlast]
  · simp [hdone, hu, afterFetch, hlast]
  · exact (congrArg State.encErr hframe).trans (by simp [hu])
  · exact (congrArg State.program hframe).trans (by simp [hu, afterFetch])
  · exact (congrArg State.schedule hframe).trans (by simp [hu, afterFetch, hs])

/-- An ENCODE of a legal length after the last hand-over meets BUSY = 0 and is accepted (60 R158). -/
theorem encode_after_last_handover (hs : s.schedule = .encoder :: .host :: later) (hl : s.frameLen.toNat ∈ legalLen) :
    ∃ t : State, core.run 2 s = .next t ∧
      t.encBusy = true ∧ t.encDone = false ∧ t.encErr = .none ∧ t.encIdx = 0 ∧
      t.encSeq = (symbols (frameBytes s)).map symbolWord ∧ t.program = rest ∧ t.schedule = later := by
  obtain ⟨u, hstep, -, -, hbusy, -, hframe⟩ := (encoderHandover s (by rw [nextTurn, hs])).1 hb hr (.space 0) hy
  have hidle : u.encBusy = false := by simp [hbusy, hlast]
  have hlen : u.frameLen = s.frameLen := (congrArg State.frameLen hframe).trans rfl
  have hbytes : u.frame = s.frame := (congrArg State.frame hframe).trans rfl
  have hline : u.program = .cmd w :: rest := (congrArg State.program hframe).trans hp
  have hsched : u.schedule = .host :: later := (congrArg State.schedule hframe).trans (by simp [hs])
  have haccepted : step u =
      .next (acceptEncode ((symbols (frameBytes s)).map symbolWord) (afterFetch u rest)) := by
    rw [step_cmd (by rw [nextTurn, hsched]) hline, runCommand_encode hop,
      runEncode_accepted (s := afterFetch u rest) hidle (hlen ▸ hl)]
    simp [frameBytes, afterFetch, hlen, hbytes]
  exact ⟨_, (run_next hstep).trans (run_next haccepted), rfl, rfl, rfl, rfl, rfl, rfl, by simp [afterFetch, hsched]⟩

end Race

/-- Settles O28: with the host first the ENCODE meets BUSY = 1; with the encoder first it meets BUSY = 0. -/
theorem encodeRacesTheLastHandover : Obligations.EncodeRacesTheLastHandover := by
  intro s w rest later hb hlast hy hr hl hp hw
  have hop : opcodeOf w = 0x01#8 := BitVec.eq_of_toNat_eq ((opcodeOf_toNat w).trans hw)
  exact ⟨encode_before_last_handover (s := { s with schedule := _ }) hb hlast hy hr hp hop rfl,
    encode_after_last_handover (s := { s with schedule := _ }) hb hlast hy hr hp hop rfl hl⟩

end Sys2Proof.Machine
end

