-- ==== Sys2Proof/Proofs/FieldWriters.lean ====
section
/-! PROOFS. Who writes the operand registers (10 R21), DEC_STATUS.DONE (10 R26) and the tolerance (00 R5). -/

namespace Sys2Proof.Machine

/-! ### The operand registers -/

/-- The operand registers stand in `t` as in `s` (10 R30 to R33). -/
structure SameOperands (s t : State) : Prop where
  frameLen : t.frameLen = s.frameLen
  frame : t.frame = s.frame
  capCount : t.capCount = s.capCount
  cap : t.cap = s.cap

/-- Of what the host can do, only a WR to an offset other than CMD's writes an operand register (10 R21). -/
theorem HostEffect.sameOperands {s t : State} {p : List HostLine} (he : HostEffect s p t) :
    SameOperands s t ∨ ∃ off v, HostRuns s (.wr off v) ∧ off ≠ regOffset .cmd := by
  cases he with
  | store r v hr h => exact .inr ⟨_, v, h, fun hcmd => hr (regOffset_injective hcmd)⟩
  | nothing | encode _ | decode _ | read _ => exact .inl (by constructor <;> simp [afterFetch])

/-- A step other than a reset leaves the operand registers as they were, or it is such a WR. -/
theorem step_sameOperands {s t : State} (h : step s = .next t) (hn : nextTurn s ≠ .reset) :
    SameOperands s t ∨ ∃ off v, HostRuns s (.wr off v) ∧ off ≠ regOffset .cmd := by
  rcases step_cases h with ⟨-, p, he⟩ | ⟨-, ⟨-, rfl⟩ | ⟨-, -, y, -, rfl⟩⟩ | ⟨us, -, rfl⟩ | ⟨hreset, -⟩
  · exact he.sameOperands
  · exact .inl ⟨rfl, rfl, rfl, rfl⟩
  · exact .inl ⟨by simp, by simp, by simp, by simp⟩
  · exact .inl ⟨by simp, by simp, by simp, by simp⟩
  · exact absurd hreset hn

/-- Settles O42: a step that is no such WR leaves each of the four as it was. -/
theorem onlyWritesChangeOperands : Obligations.OnlyWritesChangeOperands := by
  intro s t h hn hne
  refine (step_sameOperands h hn).resolve_left fun hsame => ?_
  rcases hne with hlen | hframe | hcount | hcap
  · exact hlen hsame.frameLen
  · exact hframe hsame.frame
  · exact hcount hsame.capCount
  · exact hcap hsame.cap

/-! ### DEC_STATUS.DONE -/

/-- A step other than a reset leaves DEC_STATUS.DONE as it was, or it runs a DECODE and sets it (10 R26). -/
theorem step_decDone {s t : State} (h : step s = .next t) (hn : nextTurn s ≠ .reset) :
    t.decDone = s.decDone ∨ (RunsCommand s 0x02#8 ∧ t.decDone = true) := by
  rcases step_cases h with ⟨-, p, he⟩ | ⟨-, ⟨-, rfl⟩ | ⟨-, -, y, -, rfl⟩⟩ | ⟨us, -, rfl⟩ | ⟨hreset, -⟩
  · cases he with
    | decode hrun => exact .inr ⟨hrun, runDecode_decDone _⟩
    | nothing | encode _ | store _ _ _ _ | read _ => exact .inl (by simp [afterFetch])
  · exact .inl rfl
  · exact .inl (by simp)
  · exact .inl (by simp)
  · exact absurd hreset hn

/-- Settles O44: a DECODE sets DONE, a reset clears it, and no other step writes it. -/
theorem decodeDoneStaysUntilReset : Obligations.DecodeDoneStaysUntilReset := by
  refine ⟨fun ign s => ⟨_, exec_decodeCmd ign s, runDecode_decDone s⟩, fun s t hdone h hn => ?_, fun s t hdone h ht => ?_⟩
  · rcases step_decDone h hn with hsame | ⟨-, hset⟩
    · exact hsame.trans hdone
    · exact hset
  · have hn : nextTurn s ≠ .reset := fun hreset => by
      rw [step_reset hreset] at h
      cases h
      cases ht
    rcases step_decDone h hn with hsame | ⟨hrun, -⟩
    · rw [hsame, hdone] at ht; cases ht
    · exact hrun

/-! ### The tolerance -/

/-- Settles O45, by the cases of a step: no operation of the model writes the field. -/
theorem toleranceIsFixed : Obligations.ToleranceIsFixed := by
  intro s t h
  rcases step_cases h with ⟨-, p, he⟩ | ⟨-, ⟨-, rfl⟩ | ⟨-, -, y, -, rfl⟩⟩ | ⟨us, -, rfl⟩ | ⟨-, rfl⟩
  · cases he <;> simp [afterFetch]
  · rfl
  · simp
  · simp
  · rfl

end Sys2Proof.Machine
end

