-- ==== Sys2Proof/Proofs/Invariant.lean ====
section
/-! PROOFS. The invariant (`State.Inv`): the encoder's clauses and the decoder's apart, each kept by every operation; and
what follows from it, that no run faults and that the line is modulated during a train alone. -/

namespace Sys2Proof.Machine

/-! ### The two halves of the invariant -/

/-- The clauses of the invariant on the encoder and the emitter. -/
structure EncoderInv (s : State) : Prop where
  train : s.encBusy = true →
    ∃ f, LegalFrame f ∧ s.encSeq = (symbols f).map symbolWord ∧ s.encIdx < s.encSeq.length
  handed : s.encBusy = true → ∃ before, s.sent = before ++ s.encSeq.take s.encIdx
  busyNotDone : s.encBusy = true → s.encDone = false
  idleLine : s.encBusy = false ∨ s.encIdx = 0 → s.emLine = .off ∧ s.emLeft = 0
  carrierSet : s.encBusy = true → 0 < s.encIdx → s.emCarrier = carrierKhz
  leftBound : s.emLeft < 2 ^ 16

/-- The clauses of the invariant on the decoder. -/
structure DecoderInv (s : State) : Prop where
  undecoded : s.decDone = false →
    s.decOk = false ∧ s.decErr = .none ∧ s.failPos = 0#8 ∧ s.resBits = 0#7 ∧ s.resValue = 0#32
  decoded : s.decOk = true →
    s.decDone = true ∧ s.decErr = .none ∧ s.failPos = 0#8 ∧ s.resBits.toNat ∈ legalBits
  mismatched : s.decDone = true → s.decOk = false → FailPosMatches s.decErr s.failPos.toNat

/-- The invariant is its two halves. -/
theorem inv_iff (s : State) : s.Inv ↔ EncoderInv s ∧ DecoderInv s :=
  ⟨fun h => ⟨⟨h.train, h.handed, h.busyNotDone, h.idleLine, h.carrierSet, h.leftBound⟩,
      h.undecoded, h.decoded, h.mismatched⟩,
    fun ⟨he, hd⟩ => ⟨he.train, he.handed, he.busyNotDone, he.idleLine, he.carrierSet, he.leftBound,
      hd.undecoded, hd.decoded, hd.mismatched⟩⟩

/-- The encoder's half rests on the encoder's and the emitter's fields alone. -/
theorem EncoderInv.of_same {s t : State} (hs : EncoderInv s) (h : SameEncoder s t) : EncoderInv t := by
  obtain ⟨hbusy, hdone, hseq, hidx, hsent, hline, hcarrier, hleft⟩ := h
  constructor <;> simp only [hbusy, hdone, hseq, hidx, hsent, hline, hcarrier, hleft]
  exacts [hs.train, hs.handed, hs.busyNotDone, hs.idleLine, hs.carrierSet, hs.leftBound]

/-- The decoder's status and results stand in `t` as in `s`. -/
structure SameDecoder (s t : State) : Prop where
  done : t.decDone = s.decDone
  ok : t.decOk = s.decOk
  err : t.decErr = s.decErr
  pos : t.failPos = s.failPos
  bits : t.resBits = s.resBits
  value : t.resValue = s.resValue

/-- The decoder's half rests on the decoder's fields alone. -/
theorem DecoderInv.of_same {s t : State} (hs : DecoderInv s) (h : SameDecoder s t) : DecoderInv t := by
  obtain ⟨hdone, hok, herr, hpos, hbits, hvalue⟩ := h
  constructor <;> simp only [hdone, hok, herr, hpos, hbits, hvalue]
  exacts [hs.undecoded, hs.decoded, hs.mismatched]

/-! ### The decoder's half -/

/-- A decode that succeeds passed the gate and gives its legal bit count (41 R112, R116). -/
theorem decodePulses_ok_bits {T : Nat} {c : List Dur} {bits : BitVec 7} {value : Word}
    (h : decodePulses T c = .ok bits value) : gate c.length = some bits.toNat ∧ bits.toNat ∈ legalBits := by
  cases hg : gate c.length with
  | none => rw [decodePulses_of_gate_none T hg] at h; cases h
  | some n =>
    have hn := (gate_some hg).1
    rw [decodePulses_of_gate_some T hg] at h
    split at h
    · split at h
      · rw [scanBits_ok h, legalBits_toNat hn]; exact ⟨rfl, hn⟩
      · cases h
    · cases h

/-- A decode that fails reports a position that belongs to its code (10 R29, 60 R151). -/
theorem decodePulses_fail_pos {T : Nat} {c : List Dur} {code : DecErr} {pos : BitVec 8}
    (h : decodePulses T c = .fail code pos) : FailPosMatches code pos.toNat := by
  cases hg : gate c.length with
  | none => rw [decodePulses_of_gate_none T hg] at h; cases h; rfl
  | some n =>
    rw [decodePulses_of_gate_some T hg] at h
    split at h
    · split at h
      · obtain ⟨j, -, hj, ⟨rfl, rfl⟩ | ⟨rfl, rfl⟩⟩ := scanBits_fail h
        · exact ⟨j, by omega, by rw [BitVec.toNat_ofNat]; omega⟩
        · exact ⟨j, by omega, by rw [BitVec.toNat_ofNat]; omega⟩
      · cases h; rfl
    · cases h; rfl

/-- Every DECODE leaves the decoder's half, whatever was before it (41 R117). -/
theorem runDecode_decoderInv (s : State) : DecoderInv (runDecode s) := by
  rcases runDecode_cases s with ⟨bits, value, hok, he⟩ | ⟨code, pos, hfail, he⟩ <;> rw [he]
  · exact ⟨nofun, fun _ => ⟨rfl, rfl, rfl, (decodePulses_ok_bits hok).2⟩, fun _ => nofun⟩
  · exact ⟨nofun, nofun, fun _ _ => decodePulses_fail_pos hfail⟩

/-- Of what the host can do, only a DECODE touches the decoder, and it leaves its half of the invariant (41 R117, R123). -/
theorem HostEffect.decoderInv {s t : State} {p : List HostLine} (he : HostEffect s p t) (hs : DecoderInv s) :
    DecoderInv t := by
  cases he with
  | decode _ => exact runDecode_decoderInv _
  | nothing | encode _ | store _ _ _ _ | read _ => exact hs.of_same (by constructor <;> simp [afterFetch])

theorem resetBlock_decoderInv (s : State) : DecoderInv (resetBlock s) :=
  ⟨fun _ => ⟨rfl, rfl, rfl, rfl, rfl⟩, nofun, nofun⟩

/-- Every step keeps the decoder's half. -/
theorem step_decoderInv {s t : State} (hs : DecoderInv s) (h : step s = .next t) : DecoderInv t := by
  rcases step_cases h with ⟨-, p, he⟩ | ⟨-, ⟨-, rfl⟩ | ⟨-, -, y, -, rfl⟩⟩ | ⟨us, -, rfl⟩ | ⟨-, rfl⟩
  · exact he.decoderInv hs
  · exact hs.of_same ⟨rfl, rfl, rfl, rfl, rfl, rfl⟩
  · exact hs.of_same (by constructor <;> simp)
  · exact hs.of_same (by constructor <;> simp)
  · exact resetBlock_decoderInv _

/-! ### The symbols of a train at the encoder's place -/

/-- The offered word is that of the symbol at its place. -/
theorem symbols_getElem_of_word {f : List Byte} {i : Nat} {y : Symbol}
    (h : ((symbols f).map symbolWord)[i]? = some (symbolWord y)) : (symbols f)[i]? = some y := by
  rw [List.getElem?_map, Option.map_eq_some_iff] at h
  obtain ⟨z, hz, hword⟩ := h
  rw [hz, symbolWord_injective hword]

/-- The last symbol is the idle sentinel (40 R90, R95). -/
theorem symbols_getElem_last {f : List Byte} {i : Nat} {y : Symbol} (hlast : i + 1 = (symbols f).length)
    (hy : (symbols f)[i]? = some y) : y = .space 0 := by
  obtain ⟨-, -, -, -, -, hsentinel, -⟩ := symbolSequence f
  rw [symbols_length] at hlast
  rw [show i = 4 + 16 * f.length by omega, hsentinel] at hy
  exact (Option.some.inj hy).symm

/-- No pulse of a byte is a CARRIER (40 R90). -/
theorem carrier_not_mem_bytePulses (g : BitVec 16) (b : Byte) : Symbol.carrier g ∉ bytePulses b := by
  simp [bytePulses, bitPulses]

/-- The carrier is set by the first symbol alone (40 R91). -/
theorem symbols_getElem_succ_ne_carrier {f : List Byte} {i : Nat} {g : BitVec 16} :
    (symbols f)[i + 1]? ≠ some (.carrier g) := by
  intro h
  have hmem : Symbol.carrier g ∈ train f := List.mem_of_getElem? (by simpa [symbols] using h)
  simp [train, carrier_not_mem_bytePulses] at hmem

/-- A symbol's ARG has 16 bits (30 R74). -/
theorem symbolUs_lt (y : Symbol) : symbolUs y < 2 ^ 16 := by
  cases y with
  | carrier f => exact Nat.two_pow_pos 16
  | mark d | space d => exact d.isLt

/-- The carrier is 38 kHz once the first symbol of a train has been accepted, and stays so (00 R4, 70 R172). -/
theorem emitterAccept_emCarrier_of_train {f : List Byte} {i : Nat} {y : Symbol} {s : State}
    (hy : (symbols f)[i]? = some y) (hs : 0 < i → s.emCarrier = carrierKhz) :
    (emitterAccept y s).emCarrier = carrierKhz := by
  cases i with
  | zero => cases hy; rfl
  | succ i =>
    cases y with
    | carrier g => exact absurd hy symbols_getElem_succ_ne_carrier
    | mark d | space d => exact hs i.succ_pos

/-! ### The encoder's half -/

/-- A frame of a legal FRAME_LEN has that many bytes (10 R31). -/
theorem frameBytes_legal {s : State} (h : s.frameLen.toNat ∈ legalLen) : LegalFrame (frameBytes s) := by
  have hlen : (frameBytes s).length = s.frameLen.toNat := by
    simp only [legalLen, List.mem_cons, List.not_mem_nil, or_false] at h
    rw [frameBytes, List.length_take, Vector.length_toList]
    omega
  rwa [LegalFrame, hlen]

/-- An accepted ENCODE starts a legal frame's train with the line off and the emitter ready (40 R93). -/
theorem acceptEncode_encoderInv {s : State} {f : List Byte} (hs : EncoderInv s) (hb : s.encBusy = false)
    (hf : LegalFrame f) : EncoderInv (acceptEncode ((symbols f).map symbolWord) s) where
  train _ := ⟨f, hf, rfl, by simp⟩
  handed _ := ⟨s.sent, by simp⟩
  busyNotDone _ := rfl
  idleLine _ := hs.idleLine (.inl hb)
  carrierSet _ h := absurd h (Nat.lt_irrefl 0)
  leftBound := hs.leftBound

theorem runEncode_encoderInv {s : State} (hs : EncoderInv s) : EncoderInv (runEncode s) := by
  rcases runEncode_cases s with ⟨-, he⟩ | ⟨hb, hl, he⟩ | ⟨-, -, he⟩ <;> rw [he]
  · exact hs.of_same (refuseEncode_sameEncoder _ s)
  · exact acceptEncode_encoderInv hs hb (frameBytes_legal hl)
  · exact hs.of_same (refuseEncode_sameEncoder _ s)

/-- Using up the turn and a line leaves the encoder as it is. -/
theorem afterFetch_sameEncoder (s : State) (p : List HostLine) : SameEncoder s (afterFetch s p) :=
  ⟨rfl, rfl, rfl, rfl, rfl, rfl, rfl, rfl⟩

theorem popSchedule_sameEncoder (s : State) : SameEncoder s (popSchedule s) :=
  ⟨rfl, rfl, rfl, rfl, rfl, rfl, rfl, rfl⟩

theorem HostEffect.encoderInv {s t : State} {p : List HostLine} (he : HostEffect s p t) (hs : EncoderInv s) :
    EncoderInv t := by
  rcases he.sameEncoder with hsame | rfl
  · exact hs.of_same hsame
  · exact runEncode_encoderInv (hs.of_same (afterFetch_sameEncoder s p))

/-- The symbol that completes a train is the idle sentinel (40 R95). -/
theorem symbol_eq_space_zero_of_last {s : State} {y : Symbol} (hs : EncoderInv s) (hb : s.encBusy = true)
    (hy : s.encSeq[s.encIdx]? = some (symbolWord y)) (hlast : s.encIdx + 1 = s.encSeq.length) : y = .space 0 := by
  obtain ⟨f, -, hseq, -⟩ := hs.train hb
  rw [hseq] at hy hlast
  exact symbols_getElem_last (by simpa using hlast) (symbols_getElem_of_word hy)

/-- A hand-over keeps the encoder's half: one symbol more has passed, and with the last one the line is off (40 R94, R95). -/
theorem handover_encoderInv {s : State} {y : Symbol} (hs : EncoderInv s) (hb : s.encBusy = true)
    (hy : s.encSeq[s.encIdx]? = some (symbolWord y)) : EncoderInv (emitterAccept y (advanceEncoder s)) := by
  obtain ⟨f, hf, hseq, hidx⟩ := hs.train hb
  have hbusy := advanceEncoder_encBusy hb
  constructor
  case train =>
    intro hb'
    simp only [emitterAccept_encBusy, hbusy, decide_eq_true_eq] at hb'
    exact ⟨f, hf, by simpa using hseq, by simp; omega⟩
  case handed =>
    intro _
    obtain ⟨before, hsent⟩ := hs.handed hb
    exact ⟨before, by simp [hsent, List.take_add_one, hy]⟩
  case busyNotDone =>
    intro hb'
    simp only [emitterAccept_encBusy, hbusy, decide_eq_true_eq] at hb'
    simp [hs.busyNotDone hb, hb']
  case idleLine =>
    intro hidle
    simp only [emitterAccept_encBusy, hbusy, emitterAccept_encIdx, advanceEncoder_encIdx, Nat.succ_ne_zero, or_false,
      decide_eq_false_iff_not, not_not] at hidle
    rw [symbol_eq_space_zero_of_last hs hb hy hidle]
    exact ⟨rfl, rfl⟩
  case carrierSet =>
    intro _ _
    exact emitterAccept_emCarrier_of_train (symbols_getElem_of_word (hseq ▸ hy)) (by simpa using hs.carrierSet hb)
  case leftBound => simpa using symbolUs_lt y

/-- Time keeps the encoder's half: it moves only an emitter with duration left, and then the block is not idle. -/
theorem emitterElapse_encoderInv {s : State} (hs : EncoderInv s) (us : Nat) : EncoderInv (emitterElapse us s) := by
  have hactive (h0 : s.emLeft ≠ 0) : ¬(s.encBusy = false ∨ s.encIdx = 0) := fun hidle => h0 (hs.idleLine hidle).2
  rcases emitterElapse_cases us s with ⟨-, he⟩ | ⟨hlt, he⟩ | ⟨h0, -, he⟩ <;> rw [he]
  · exact hs
  · exact ⟨hs.train, hs.handed, hs.busyNotDone, fun hidle => absurd hidle (hactive (by omega)), hs.carrierSet,
      Nat.lt_of_le_of_lt (Nat.sub_le _ _) hs.leftBound⟩
  · exact ⟨hs.train, hs.handed, hs.busyNotDone, fun hidle => absurd hidle (hactive h0), hs.carrierSet,
      Nat.two_pow_pos 16⟩

theorem resetBlock_encoderInv (s : State) : EncoderInv (resetBlock s) :=
  ⟨nofun, nofun, nofun, fun _ => ⟨rfl, rfl⟩, nofun, Nat.two_pow_pos 16⟩

/-- Every step keeps the encoder's half. -/
theorem step_encoderInv {s t : State} (hs : EncoderInv s) (h : step s = .next t) : EncoderInv t := by
  have hpop := hs.of_same (popSchedule_sameEncoder s)
  rcases step_cases h with ⟨-, p, he⟩ | ⟨-, ⟨-, rfl⟩ | ⟨hb, -, y, hy, rfl⟩⟩ | ⟨us, -, rfl⟩ | ⟨-, rfl⟩
  · exact he.encoderInv hs
  · exact hpop
  · exact handover_encoderInv hpop hb hy
  · exact emitterElapse_encoderInv hpop us
  · exact resetBlock_encoderInv _

/-- Settles O49: the operations of a step keep each half of the invariant. -/
theorem stepKeepsInvariant : Obligations.StepKeepsInvariant := by
  intro s t hs h
  obtain ⟨henc, hdec⟩ := (inv_iff s).1 hs
  exact (inv_iff t).2 ⟨step_encoderInv henc h, step_decoderInv hdec h⟩

/-! ### Reset -/

/-- Settles O47: every field named is one that `State.reset` gives its value. -/
theorem resetState : Obligations.ResetState :=
  ⟨rfl, rfl, rfl, by simp [State.reset], rfl, rfl, rfl, rfl, rfl, rfl⟩

/-- The state after reset meets the invariant with any host program and any order of the agents loaded (10 R42). -/
theorem loaded_inv (program : List HostLine) (schedule : List Turn) : (State.loaded program schedule).Inv :=
  (inv_iff _).2 ⟨⟨nofun, nofun, nofun, fun _ => ⟨rfl, rfl⟩, nofun, Nat.two_pow_pos 16⟩,
    fun _ => ⟨rfl, rfl, rfl, rfl, rfl⟩, nofun, nofun⟩

/-- Settles O48: after reset the block is idle and nothing has been decoded. -/
theorem invariantAtReset : Obligations.InvariantAtReset := loaded_inv [] []

/-! ### What the invariant gives -/

/-- Settles O23: the symbol handed over with BUSY falling is the train's last, the sentinel. -/
theorem completionPassesTheSentinel : Obligations.CompletionPassesTheSentinel := by
  intro s t hs hn hb h ht
  rcases step_of_busy hb h (by rw [hn]; nofun) with ⟨hbusy, -⟩ | ⟨-, -, y, hy, rfl⟩
  · rw [ht] at hbusy; cases hbusy
  · have hlast : s.encIdx + 1 = s.encSeq.length := by
      rw [emitterAccept_encBusy, advanceEncoder_encBusy (s := popSchedule s) hb] at ht
      exact not_not.1 (of_decide_eq_false ht)
    obtain rfl := symbol_eq_space_zero_of_last ((inv_iff s).1 hs).1 hb hy hlast
    exact ⟨hy, by simp, by simp [hlast], by simp, rfl, rfl⟩

/-- Settles O50: a train in flight has a symbol at its place, and a symbol's word decodes. -/
theorem invariantStatesAreSafe : Obligations.InvariantStatesAreSafe := by
  intro s hs r hfault
  obtain ⟨-, hb, hoffered⟩ := step_fault hfault
  obtain ⟨f, -, hseq, hidx⟩ := hs.train hb
  rcases hoffered with hnone | ⟨w, e, hw, he⟩
  · exact absurd hidx (Nat.not_lt.2 (List.getElem?_eq_none_iff.1 hnone))
  · rw [hseq, List.getElem?_map, Option.map_eq_some_iff] at hw
    obtain ⟨y, -, rfl⟩ := hw
    rw [decode_symbolWord] at he
    cases he

/-! ### Runs from a state with the invariant -/

/-- A run from a state with the invariant does not fault, and where it goes on it leads to one with the invariant. -/
theorem run_keeps_inv (k : Nat) {s : State} (hs : s.Inv) :
    (∀ r, core.run k s ≠ .fault r) ∧ ∀ t, core.run k s = .next t → State.Inv t := by
  induction k generalizing s with
  | zero =>
    refine ⟨fun r h => ?_, fun t h => ?_⟩ <;> cases h
    exact hs
  | succ k ih =>
    cases hstep : step s with
    | next u => rw [run_next hstep]; exact ih (stepKeepsInvariant s u hs hstep)
    | fault r => exact absurd hstep (invariantStatesAreSafe s hs r)
    | refused r =>
      rw [run_refused hstep]
      refine ⟨fun r h => ?_, fun t h => ?_⟩ <;> cases h

/-- In a state with the invariant and the line modulated, a train is in flight at 38 kHz (60 R164, 00 R4). -/
theorem busy_of_modulated {s : State} (hs : s.Inv) (hline : s.emLine = .modulated) :
    s.encBusy = true ∧ s.emCarrier = 38 := by
  have hactive : ¬(s.encBusy = false ∨ s.encIdx = 0) := fun hidle => by
    rw [(hs.idleLine hidle).1] at hline; cases hline
  obtain ⟨hb, hidx⟩ := not_or.1 hactive
  have hb := Bool.eq_true_of_not_eq_false hb
  exact ⟨hb, hs.carrierSet hb (Nat.pos_of_ne_zero hidx)⟩

/-- Settles O51: the run starts in a state with the invariant and keeps it. -/
theorem runsFromResetAreSafe : Obligations.RunsFromResetAreSafe := by
  intro program schedule k
  obtain ⟨hsafe, hinv⟩ := run_keeps_inv k (loaded_inv program schedule)
  exact ⟨hsafe, fun t ht => busy_of_modulated (hinv t ht)⟩

end Sys2Proof.Machine
end

