-- ==== Sys2Proof/Proofs/Fairness.lean ====
section
/-! PROOFS. A train under a fair schedule is handed over whole (70 R181, 20 R65), and without fairness it hangs for ever (93
I13). -/

namespace Sys2Proof.Machine

/-! ### One round of the fair schedule -/

/-- A round is time enough for any symbol, and a hand-over. -/
theorem fairTurns_succ (k : Nat) : fairTurns (k + 1) = .elapse 65535 :: .encoder :: fairTurns k := by
  simp [fairTurns, List.replicate_succ]

/-- `t` is `s` but for what a fair round moves: the train's place, BUSY, DONE, the schedule and the emitter. -/
def MovesTrain (s t : State) : Prop :=
  t = { s with
    encIdx := t.encIdx, sent := t.sent, encBusy := t.encBusy, encDone := t.encDone, schedule := t.schedule
    emLine := t.emLine, emCarrier := t.emCarrier, emLeft := t.emLeft, draws := t.draws }

theorem MovesTrain.trans {s t u : State} (h : MovesTrain s t) (h' : MovesTrain t u) : MovesTrain s u := by
  unfold MovesTrain at *
  rw [h', h]

theorem emitterElapse_movesTrain (us : Nat) (s : State) : MovesTrain s (emitterElapse us (popSchedule s)) := by
  rcases emitterElapse_cases us (popSchedule s) with ⟨-, he⟩ | ⟨-, he⟩ | ⟨-, -, he⟩ <;> rw [he] <;> rfl

theorem handover_movesTrain (y : Symbol) (s : State) :
    MovesTrain s (emitterAccept y (advanceEncoder (popSchedule s))) :=
  (handover_frame_eq y (popSchedule s)).trans (by simp)

/-- Time enough leaves the emitter ready (30 R76). -/
theorem emitterElapse_ready {us : Nat} {s : State} (h : s.emLeft ≤ us) : (emitterElapse us s).emLeft = 0 := by
  rcases emitterElapse_cases us s with ⟨h0, he⟩ | ⟨hlt, -⟩ | ⟨-, -, he⟩
  · rw [he, h0]
  · omega
  · rw [he]

/-- Of the train `ys` that is at its first symbol in `s`, `k` symbols have been handed over in `t`. -/
structure HandedOver (s : State) (ys : List Symbol) (later : List Turn) (k : Nat) (t : State) : Prop where
  idx : t.encIdx = k
  sent : t.sent = s.sent ++ (ys.map symbolWord).take k
  busy : t.encBusy = decide (k < ys.length)
  done : t.encDone = decide (k = ys.length)
  schedule : t.schedule = fairTurns (ys.length - k) ++ later
  left : t.emLeft < 2 ^ 16
  seq : t.encSeq = ys.map symbolWord
  moves : MovesTrain s t

/-- A round hands one symbol more over, to a ready emitter (40 R94). -/
theorem HandedOver.round {s t : State} {ys : List Symbol} {later : List Turn} {k : Nat}
    (h : HandedOver s ys later k t) (hk : k < ys.length) :
    ∃ u v y, core.run 2 t = .next u ∧ HandedOver s ys later (k + 1) u ∧
      ys[k]? = some y ∧ v.emCarrier = t.emCarrier ∧ u = emitterAccept y v := by
  obtain ⟨n, hn⟩ : ∃ n, ys.length - k = n + 1 := ⟨ys.length - k - 1, by omega⟩
  have hsched : t.schedule = .elapse 65535 :: .encoder :: (fairTurns n ++ later) := by
    rw [h.schedule, hn, fairTurns_succ]; rfl
  obtain ⟨m, hm⟩ : ∃ m, m = emitterElapse 65535 (popSchedule t) := ⟨_, rfl⟩
  have helapse : step t = .next m := hm ▸ step_elapse (by rw [nextTurn, hsched])
  have hmoves : MovesTrain t m := hm ▸ emitterElapse_movesTrain 65535 t
  have hready : m.emLeft = 0 := hm ▸ emitterElapse_ready (Nat.le_of_lt_succ h.left)
  have hbusy : m.encBusy = true := by simp [hm, h.busy, hk]
  have hoffered : m.encSeq[m.encIdx]? = some (symbolWord ys[k]) := by simp [hm, h.seq, h.idx, hk]
  have hhandover := step_handover (s := m) (by simp [nextTurn, hm, hsched]) hbusy hready hoffered
  refine ⟨_, _, _, (run_next helapse).trans (run_next hhandover), ?_, List.getElem?_eq_getElem hk, ?_, rfl⟩
  · constructor
    case idx => simp [hm, h.idx]
    case sent => simp [hm, h.sent, List.take_add_one, hk]
    case busy =>
      rw [emitterAccept_encBusy, advanceEncoder_encBusy (s := popSchedule m) hbusy, decide_eq_decide]
      simp [hm, h.seq, h.idx]
      omega
    case done => simp [hm, h.done, h.seq, h.idx, Nat.ne_of_lt hk]
    case schedule => simp [hm, hsched, show ys.length - (k + 1) = n by omega]
    case left => simpa using symbolUs_lt ys[k]
    case seq => simp [hm, h.seq]
    case moves => exact h.moves.trans (hmoves.trans (handover_movesTrain _ m))
  · simp [hm]

/-- After `k` rounds exactly the first `k` symbols of a frame's train have passed, and the carrier is 38 kHz from the first
on (70 R181, 00 R4). -/
theorem handedOver_of_fairTurns {s : State} {f : List Byte} {later : List Turn}
    (h : HandedOver s (symbols f) later 0 s) {k : Nat} (hk : k ≤ (symbols f).length) :
    ∃ t, core.run (2 * k) s = .next t ∧ HandedOver s (symbols f) later k t ∧ (0 < k → t.emCarrier = carrierKhz) ∧
      (k = (symbols f).length → t.emLine = .off ∧ t.emLeft = 0) := by
  induction k with
  | zero => exact ⟨s, run_zero s, h, nofun, fun h0 => by simp at h0⟩
  | succ k ih =>
    obtain ⟨t, hrun, ht, hcarrier, -⟩ := ih (by omega)
    obtain ⟨u, v, y, hround, hu, hy, hv, rfl⟩ := ht.round (by omega)
    refine ⟨_, (run_add (2 * k) 2 s t hrun).trans hround, hu, fun _ => ?_, fun hlast => ?_⟩
    · exact emitterAccept_emCarrier_of_train hy fun hpos => hv.trans (hcarrier hpos)
    · rw [symbols_getElem_last hlast hy]
      exact ⟨rfl, rfl⟩

/-- Settles O26: the rounds of the schedule hand the train's symbols over one by one, and the last is the sentinel. -/
theorem fairTrainCompletes : Obligations.FairTrainCompletes := by
  intro s f later k _ hb hd hseq hidx hleft hsched hk
  have hlen := symbols_length f
  have hstart : HandedOver s (symbols f) later 0 s :=
    ⟨hidx, by simp, by simp [hb, hlen], by simp [hd, hlen], by rw [hlen]; exact hsched, hleft, hseq, rfl⟩
  obtain ⟨t, hrun, ht, hcarrier, hidle⟩ := handedOver_of_fairTurns hstart (hlen ▸ hk)
  obtain ⟨htidx, htsent, htbusy, htdone, htsched, -, -, htmoves⟩ := ht
  rw [hlen] at htbusy htdone htsched hidle
  refine ⟨t, hrun, htidx, htsent, htbusy, htdone, htsched, fun hlast => ?_, htmoves⟩
  obtain ⟨hline, hready⟩ := hidle hlast
  exact ⟨hline, hready, hcarrier (by omega)⟩

/-! ### Runs without fairness -/

/-- With the schedule used up a step uses up no turn of it. -/
theorem popSchedule_of_nil {s : State} (h : s.schedule = []) : popSchedule s = s := by
  rw [popSchedule, h, List.tail_nil, ← h]

/-- ENC_STATUS has BUSY in bit 0 (10 R23). -/
theorem encStatusWord_and_one_of_busy {s : State} (h : s.encBusy = true) : encStatusWord s &&& 0x1#32 ≠ 0x0#32 := by
  intro hzero
  have hbit := congrArg BitVec.toNat hzero
  simp [encStatusWord_toNat, h, Nat.and_one_is_mod] at hbit
  omega

/-- The host's WAITENC while BUSY = 1, with the schedule used up, changes only what the host has read (42 R145). -/
theorem step_waitenc_of_busy {s : State} {rest : List HostLine} (hb : s.encBusy = true) (hs : s.schedule = [])
    (ht : s.thereafter = some .host) (hp : s.program = .poll 0x004 0x1 0x0 :: rest) :
    ∃ d, step s = .next { s with busData := d } := by
  have hread : busRead 0x004 s = encStatusWord s := busRead_of_offset (r := .encStatus) rfl s
  refine ⟨encStatusWord s, ?_⟩
  rw [step_poll (nextTurn_thereafter hs ht) hp (offAligned_regOffset .encStatus), popSchedule_of_nil hs, hread]
  exact congrArg _ (pollDone_of_ne (encStatusWord_and_one_of_busy hb))

/-- Settles O53: the host's WAITENC repeats its RD for ever, and the encoder's turn passes for ever. -/
theorem unfairRunsHang : Obligations.UnfairRunsHang := by
  intro s hb hs
  refine ⟨fun rest ht hp k => ?_, fun ht hr k => ?_⟩
  · induction k generalizing s with
    | zero => exact ⟨s, run_zero s, hb, rfl⟩
    | succ k ih =>
      obtain ⟨d, hd⟩ := step_waitenc_of_busy hb hs ht hp
      obtain ⟨t, hrun, hbusy, hframe⟩ := ih { s with busData := d } hb hs ht hp
      exact ⟨t, (run_next hd).trans hrun, hbusy, hframe⟩
  · have hstep : step s = .next s := by
      rw [step_encoder_not_enabled (nextTurn_thereafter hs ht) (.inr hr), popSchedule_of_nil hs]
    induction k with
    | zero => exact run_zero s
    | succ k ih => exact (run_next hstep).trans ih

end Sys2Proof.Machine
end

