-- ==== Sys2Proof/Proofs/TimingAndDecode.lean ====
section
/-! PROOFS. The line time of a train (40 R100), the tolerance bands (41 R110), and when a decode succeeds and with which
value (41 R116). -/

namespace Sys2Proof.Machine

/-! ### The line time of a train -/

theorem lineTime_append (p q : List Symbol) : lineTime (p ++ q) = lineTime p + lineTime q := by
  simp [lineTime]

/-- A bit takes 1100 µs, and 1050 µs more when it is 1 (40 R90). -/
theorem lineTime_bitPulses (x : Bool) : lineTime (bitPulses x) = 1100 + 1050 * x.toNat := by
  cases x <;> rfl

theorem lineTime_flatMap_bitPulses (xs : List Bool) :
    lineTime (xs.flatMap bitPulses) = 1100 * xs.length + 1050 * xs.countP id := by
  induction xs with
  | nil => rfl
  | cons x xs ih =>
    rw [List.flatMap_cons, lineTime_append, lineTime_bitPulses, ih, List.length_cons, List.countP_cons]
    cases x <;> simp <;> omega

/-- The bits a byte is sent in are its bits, counted from either end (20 R57). -/
theorem countP_byteBits (b : Byte) : (byteBits b).countP id = (List.range 8).countP fun k => b.getLsbD k := by
  have hbits : byteBits b = ((List.range 8).map fun k => b.getLsbD k).reverse := rfl
  rw [hbits, List.countP_reverse, List.countP_map]
  rfl

theorem lineTime_bytePulses (b : Byte) :
    lineTime (bytePulses b) = 8800 + 1050 * (List.range 8).countP fun k => b.getLsbD k := by
  rw [bytePulses, lineTime_flatMap_bitPulses, countP_byteBits]
  rfl

theorem lineTime_flatMap_bytePulses (f : List Byte) :
    lineTime (f.flatMap bytePulses) =
      1100 * (8 * f.length) + 1050 * (f.map fun b => (List.range 8).countP fun k => b.getLsbD k).sum := by
  induction f with
  | nil => rfl
  | cons b f ih =>
    rw [List.flatMap_cons, lineTime_append, lineTime_bytePulses, ih, List.map_cons, List.sum_cons, List.length_cons]
    omega

/-- Settles O20: the header and the trailer take 9350 µs, and each byte its bits' time. -/
theorem lineTime_train : Obligations.LineTime := by
  intro f
  have hheader : lineTime [.mark hdrMarkUs, .space hdrSpaceUs] = 8800 := rfl
  have htrailer : lineTime [.mark trailerMarkUs, .space 0#16] = 550 := rfl
  rw [train, lineTime_append, lineTime_append, hheader, htrailer, lineTime_flatMap_bytePulses]
  omega

/-! ### The bands -/

/-- Settles O29: at a fixed tolerance and reference the band is two linear bounds on the duration. -/
theorem toleranceBands : Obligations.ToleranceBands := by
  intro d
  simp only [inBand_iff]
  omega

/-! ### A word's bits, most significant first -/

/-- The bits of a word, most significant first, in the order a decode shifts them in (41 R115). -/
def msbBits (v : Word) : List Bool := (List.range 32).map fun i => v.getLsbD (31 - i)

@[simp] theorem msbBits_length (v : Word) : (msbBits v).length = 32 := by simp [msbBits]

theorem msbBits_getElem?_eq_some_iff {v : Word} {i : Nat} {x : Bool} :
    (msbBits v)[i]? = some x ↔ i < 32 ∧ v.getLsbD (31 - i) = x := by
  simp [msbBits, List.getElem?_eq_some_iff]

theorem msbBits_injective {v w : Word} (h : msbBits v = msbBits w) : v = w := by
  apply BitVec.eq_of_getLsbD_eq
  intro i hi
  have hbit : (msbBits w)[31 - i]? = some (v.getLsbD (31 - (31 - i))) :=
    h ▸ msbBits_getElem?_eq_some_iff.2 ⟨by omega, rfl⟩
  rw [show i = 31 - (31 - i) by omega]
  exact (msbBits_getElem?_eq_some_iff.1 hbit).2.symm

/-- Of the bits shifted in, the last one is bit 0, the one before it bit 1, and so on (41 R115). -/
theorem shiftBits_getLsbD {acc : Word} {xs : List Bool} {i : Nat} (hi : i < xs.length) (hlen : xs.length ≤ 32) :
    (shiftBits acc xs).getLsbD (xs.length - 1 - i) = xs[i] := by
  induction xs using List.reverseRecOn with
  | nil => simp at hi
  | append_singleton xs x ih =>
    rw [List.length_append, List.length_singleton] at hi hlen
    rw [shiftBits_append, shiftBits_cons, shiftBits_nil, List.length_append, List.length_singleton, Nat.add_sub_cancel]
    by_cases hlast : i = xs.length
    · subst hlast
      simp
    · have hprev := ih (by omega) (by omega)
      rw [show xs.length - i = xs.length - 1 - i + 1 by omega, List.getElem_append_left (by omega), ← hprev]
      simp
      omega

/-- 32 bits shifted in fill the word (41 R115). -/
theorem msbBits_shiftBits {acc : Word} {xs : List Bool} (hlen : xs.length = 32) : msbBits (shiftBits acc xs) = xs := by
  apply List.ext_getElem (by rw [msbBits_length, hlen])
  intro i _ hi
  have hbit := shiftBits_getLsbD (acc := acc) hi (Nat.le_of_eq hlen)
  rw [hlen] at hbit
  simpa [msbBits] using hbit

theorem shiftBits_msbBits (acc v : Word) : shiftBits acc (msbBits v) = v :=
  msbBits_injective (msbBits_shiftBits (msbBits_length v))

/-! ### When a decode succeeds -/

/-- A scan that succeeds has shifted in the bits that the capture holds (41 R115). -/
theorem holdsBits_of_scanBits {T : Nat} {c : List Dur} {bits b : BitVec 7} {i k : Nat} {acc v : Word}
    (h : scanBits T c bits i k acc = .ok b v) : ∃ xs, xs.length = k ∧ HoldsBits T c i xs ∧ v = shiftBits acc xs := by
  induction k generalizing i acc with
  | zero => cases h; exact ⟨[], rfl, nofun, rfl⟩
  | succ k ih =>
    rw [scanBits_succ] at h
    split at h
    · next hmark =>
      split at h
      · cases h
      · next x hspace =>
        obtain ⟨xs, hlen, hbits, hv⟩ := ih h
        refine ⟨x :: xs, by rw [List.length_cons, hlen], ?_, hv⟩
        intro j y hy
        cases j with
        | zero => cases hy; exact ⟨hmark, hspace⟩
        | succ j => simpa only [show i + (j + 1) = i + 1 + j by omega] using hbits j y hy
    · cases h

/-- The whole scan succeeds with a value exactly when the capture holds the value's bits (41 R115). -/
theorem scanBits_eq_ok_iff (T : Nat) (c : List Dur) (bits : BitVec 7) (value : Word) :
    scanBits T c bits 0 32 0#32 = .ok bits value ↔ HoldsBits T c 0 (msbBits value) := by
  constructor
  · intro h
    obtain ⟨xs, hlen, hbits, rfl⟩ := holdsBits_of_scanBits h
    rwa [msbBits_shiftBits hlen]
  · intro h
    have hscan := scanBits_of_holdsBits (bits := bits) (acc := 0#32) h
    rwa [msbBits_length, shiftBits_msbBits] at hscan

/-- A capture holds a word's bits when each bit's mark is in its band and its space is of the bit's class (41 R115). -/
theorem holdsBits_msbBits_iff (T : Nat) (c : List Dur) (value : Word) :
    HoldsBits T c 0 (msbBits value) ↔
      ∀ i < 32, inBand T (durAt c (3 + 2 * i)) 550 = true ∧
        classify T (durAt c (4 + 2 * i)) = some (value.getLsbD (31 - i)) := by
  simp only [HoldsBits, msbBits_getElem?_eq_some_iff, Nat.zero_add]
  exact ⟨fun h i hi => h i _ ⟨hi, rfl⟩, fun h i x ⟨hi, hx⟩ => hx ▸ h i hi⟩

/-- Settles O32: the gate, the two header checks and the scan of 32 bits all pass. -/
theorem decodeSucceedsExactly : Obligations.DecodeSucceedsExactly := by
  intro T c bits value
  rw [← holdsBits_msbBits_iff, ← scanBits_eq_ok_iff T c bits value]
  constructor
  · intro h
    obtain ⟨hgate, -⟩ := decodePulses_ok_bits h
    rw [decodePulses_of_gate_some T hgate, BitVec.ofNat_toNat, BitVec.setWidth_eq] at h
    split at h
    · next hmark =>
      split at h
      · next hspace => exact ⟨hgate, hmark, hspace, h⟩
      · cases h
    · cases h
  · rintro ⟨hgate, hmark, hspace, hscan⟩
    rw [decodePulses_of_gate_some T hgate, if_pos hmark, if_pos hspace, BitVec.ofNat_toNat, BitVec.setWidth_eq, hscan]

end Sys2Proof.Machine
end

