-- ==== Sys2Proof/Proofs/PowerFrame.lean ====
section
/-! PROOFS. The power-mode frame of the host-side catalogue (00 R8, R13, R14). -/

namespace Sys2Proof.Machine

/-- The XOR-fold of bytes is the same from either end (00 R8). -/
theorem xorFold_eq_foldr (bs : List Byte) : xorFold bs = bs.foldr (· ^^^ ·) 0#8 :=
  List.foldl_eq_foldr

/-- param0 is the temperature offset as a byte (00 R14). -/
theorem packParam0_eq {tempC : Nat} (h : tempC ≤ 30) : packParam0 tempC = BitVec.ofNat 8 (tempC - 17) := by
  apply BitVec.eq_of_toNat_eq
  rw [packParam0, append_toNat, BitVec.toNat_ofNat, BitVec.toNat_ofNat, BitVec.toNat_ofNat]
  omega

/-- param1 is the fan speed in bits 6:4 and the mode in bits 3:0 (00 R14). -/
theorem packParam1_eq {mode fan : Nat} (hmode : mode < 16) (hfan : fan < 8) :
    packParam1 mode fan = BitVec.ofNat 8 (fan * 16 + mode) := by
  apply BitVec.eq_of_toNat_eq
  rw [packParam1, append_toNat, append_toNat, BitVec.toNat_ofNat, BitVec.toNat_ofNat, BitVec.toNat_ofNat,
    BitVec.toNat_ofNat]
  omega

/-- Settles O52: in the legal domain the frame is the power frame of the packed parameters, and its last byte is the
XOR-fold of the others. -/
theorem powerFrameChecksum : Obligations.PowerFrameChecksum := by
  intro purifierBit tempC mode fan pure hlo hhi hmode hfan
  refine ⟨powerFrame (packParam0 tempC) (packParam1 mode fan) (packParam2 purifierBit pure),
    if_pos ⟨hlo, hhi, hmode, hfan⟩, rfl, (by decide : 9 ∈ legalLen), rfl, ?_, ?_, ?_⟩
  · exact congrArg some (xorFold_eq_foldr (powerBody _ _ _))
  · exact congrArg some (packParam0_eq hhi)
  · simp only [List.mem_cons, List.not_mem_nil, or_false] at hmode hfan
    exact congrArg some (packParam1_eq (by omega) (by omega))

end Sys2Proof.Machine
end
